-- ==== Sys2Proof/Word.lean ====
section
/-! DEFINITION. The machine's word types (00_scope.md R5, R6, R7): unsigned bytes and 16-bit words, and the
number of a general register. -/

namespace Sys2Proof

/-- An 8-bit unsigned value: a memory cell, a general register, a timer (10_state.md R21, R24, R30). -/
abbrev Byte := BitVec 8

/-- A 16-bit unsigned value: I, PC, SP, a STACK slot, an instruction word (10_state.md R26 to R31). -/
abbrev Word := BitVec 16

/-- The number of a general register, 0 to 15 (10_state.md R24). -/
abbrev Reg := Fin 16

/-- VF, the 16th general register, which several instructions write as the flag (10_state.md R25). -/
abbrev vf : Reg := 15

end Sys2Proof
end

