-- ==== Sys2Proof/Syntax.lean ====
section
/-! DEFINITION. The instructions: one constructor per row of spec/opcode_table.json (30_encoding.md R80). -/

namespace Sys2Proof

/-- An instruction with its operands (30_encoding.md R71, R80). `x`, `y` are register numbers, `kk` a byte,
`nnn` an address (12 bits in a word; held as a 16-bit value, log entry 6), `n` a sprite height in rows. -/
inductive Instr
  /-- Clear-display (R140). -/
  | cls
  /-- Return (R92). -/
  | ret
  /-- Jump-absolute (R93). -/
  | jp (nnn : Word)
  /-- Call (R94). -/
  | call (nnn : Word)
  /-- Skip-if-equal, register vs immediate (R95). -/
  | seImm (x : Reg) (kk : Byte)
  /-- Skip-if-not-equal, register vs immediate (R96). -/
  | sneImm (x : Reg) (kk : Byte)
  /-- Skip-if-equal, register vs register (R97). -/
  | seReg (x y : Reg)
  /-- Load-immediate (R110). -/
  | ldImm (x : Reg) (kk : Byte)
  /-- Add-immediate (R111). -/
  | addImm (x : Reg) (kk : Byte)
  /-- assign (R121). -/
  | ldReg (x y : Reg)
  /-- OR (R122). -/
  | orReg (x y : Reg)
  /-- AND (R123). -/
  | andReg (x y : Reg)
  /-- XOR (R124). -/
  | xorReg (x y : Reg)
  /-- ADD (R125). -/
  | addReg (x y : Reg)
  /-- SUB (R126). -/
  | subReg (x y : Reg)
  /-- SHR (R127); `y` is in the word and has no effect. -/
  | shr (x y : Reg)
  /-- SUBN (R128). -/
  | subnReg (x y : Reg)
  /-- SHL (R129); `y` is in the word and has no effect. -/
  | shl (x y : Reg)
  /-- Skip-if-register-not-equal (R98). -/
  | sneReg (x y : Reg)
  /-- Load-index (R112). -/
  | ldI (nnn : Word)
  /-- Jump-indexed (R99). -/
  | jpV0 (nnn : Word)
  /-- Random-masked (R113). -/
  | rnd (x : Reg) (kk : Byte)
  /-- Draw-sprite (R141). -/
  | drw (x y : Reg) (n : Nat)
  /-- Skip-if-key-pressed (R150). -/
  | skp (x : Reg)
  /-- Skip-if-key-not-pressed (R151). -/
  | sknp (x : Reg)
  /-- Load-delay-timer (R160). -/
  | ldVxDT (x : Reg)
  /-- Await-key (R152). -/
  | ldVxK (x : Reg)
  /-- Set-delay-timer (R161). -/
  | ldDTVx (x : Reg)
  /-- Set-sound-timer (R162). -/
  | ldSTVx (x : Reg)
  /-- Add-to-index (R163). -/
  | addIVx (x : Reg)
  /-- Load-glyph-address (R164). -/
  | ldFVx (x : Reg)
  /-- Store-BCD (R165). -/
  | ldBVx (x : Reg)
  /-- Block-store (R166). -/
  | ldMemVx (x : Reg)
  /-- Block-load (R167). -/
  | ldVxMem (x : Reg)
  /-- Every word no other row matches (R82, R100). -/
  | nop
  deriving DecidableEq, Repr

end Sys2Proof
end

