-- ==== Sys2Proof/WellFormed.lean ====
section
/-! DEFINITION. Which instruction terms an instruction word can carry (30_encoding.md R71, R72). Register numbers and
byte immediates are bounded by their types; the two checks are the 12-bit address and the 4-bit height. -/

namespace Sys2Proof

/-- "The address immediate is 12 bits: … so nnn is in 0..0xFFF" (30_encoding.md R72, 90_conflicts.md C7). -/
def addressFits (nnn : Word) : Bool := decide (nnn.toNat ≤ 0xFFF)

/-- The sprite height is the field w[3:0] (30_encoding.md R71): "n = height in rows, 0..15" (43_display.md R141). -/
def heightFits (n : Nat) : Bool := decide (n ≤ 15)

/-- Each operand is in the range its field of the word has. -/
def Instr.wellFormed : Instr → Bool
  | .jp nnn => addressFits nnn
  | .call nnn => addressFits nnn
  | .ldI nnn => addressFits nnn
  | .jpV0 nnn => addressFits nnn
  | .drw _ _ n => heightFits n
  | .cls | .ret | .nop => true
  | .seImm _ _ | .sneImm _ _ | .ldImm _ _ | .addImm _ _ | .rnd _ _ => true
  | .seReg _ _ | .sneReg _ _ | .ldReg _ _ | .orReg _ _ | .andReg _ _ | .xorReg _ _ => true
  | .addReg _ _ | .subReg _ _ | .subnReg _ _ | .shr _ _ | .shl _ _ => true
  | .skp _ | .sknp _ | .ldVxDT _ | .ldVxK _ | .ldDTVx _ | .ldSTVx _ => true
  | .addIVx _ | .ldFVx _ | .ldBVx _ | .ldMemVx _ | .ldVxMem _ => true

end Sys2Proof
end

