-- ==== Sys2Proof/Decode.lean ====
section
/-! DEFINITION. Decoding and encoding instruction words (30_encoding.md R70 to R82). -/

namespace Sys2Proof

/-! ## Fields of a word -/

/-- `w[hi:lo]`, the unsigned value of bits hi down to lo (00_scope.md R6). -/
def bits (w : Word) (hi lo : Nat) : Nat := w.toNat / 2 ^ lo % 2 ^ (hi + 1 - lo)

/-- The first register number, `w[11:8]` (30_encoding.md R71). -/
def fieldX (w : Word) : Reg := Fin.ofNat 16 (bits w 11 8)

/-- The second register number, `w[7:4]` (30_encoding.md R71). -/
def fieldY (w : Word) : Reg := Fin.ofNat 16 (bits w 7 4)

/-- The sprite height, `w[3:0]` (30_encoding.md R71). -/
def fieldN (w : Word) : Nat := bits w 3 0

/-- The byte immediate, `w[7:0]` (30_encoding.md R71). -/
def fieldKK (w : Word) : Byte := BitVec.ofNat 8 (bits w 7 0)

/-- The address immediate, `w[11:0]`, zero-extended to 16 bits (30_encoding.md R71, R72). -/
def fieldNNN (w : Word) : Word := BitVec.ofNat 16 (bits w 11 0)

/-! ## The decoder -/

/-- 0-family, on the low nibble only (30_encoding.md R75). -/
def decodeFamily0 (w : Word) : Instr :=
  let n := bits w 3 0
  if n = 0x0 then .cls
  else if n = 0xE then .ret
  else .nop

/-- 8-family, on the low nibble (30_encoding.md R76). -/
def decodeFamily8 (w : Word) : Instr :=
  let n := bits w 3 0
  if n = 0x0 then .ldReg (fieldX w) (fieldY w)
  else if n = 0x1 then .orReg (fieldX w) (fieldY w)
  else if n = 0x2 then .andReg (fieldX w) (fieldY w)
  else if n = 0x3 then .xorReg (fieldX w) (fieldY w)
  else if n = 0x4 then .addReg (fieldX w) (fieldY w)
  else if n = 0x5 then .subReg (fieldX w) (fieldY w)
  else if n = 0x6 then .shr (fieldX w) (fieldY w)
  else if n = 0x7 then .subnReg (fieldX w) (fieldY w)
  else if n = 0xE then .shl (fieldX w) (fieldY w)
  else .nop

/-- E-family, on the low nibble only (30_encoding.md R77). -/
def decodeFamilyE (w : Word) : Instr :=
  let n := bits w 3 0
  if n = 0x1 then .sknp (fieldX w)
  else if n = 0xE then .skp (fieldX w)
  else .nop

/-- F-family, on the low byte (30_encoding.md R78). -/
def decodeFamilyF (w : Word) : Instr :=
  let kk := bits w 7 0
  if kk = 0x07 then .ldVxDT (fieldX w)
  else if kk = 0x0A then .ldVxK (fieldX w)
  else if kk = 0x15 then .ldDTVx (fieldX w)
  else if kk = 0x18 then .ldSTVx (fieldX w)
  else if kk = 0x1E then .addIVx (fieldX w)
  else if kk = 0x29 then .ldFVx (fieldX w)
  else if kk = 0x33 then .ldBVx (fieldX w)
  else if kk = 0x55 then .ldMemVx (fieldX w)
  else if kk = 0x65 then .ldVxMem (fieldX w)
  else .nop

/-- The decoder, a total function of the word: first level on the top nibble (30_encoding.md R74, R81). The last arm is
the top nibble 0xF. -/
def decodeWord (w : Word) : Instr :=
  let op := bits w 15 12
  if op = 0x0 then decodeFamily0 w
  else if op = 0x1 then .jp (fieldNNN w)
  else if op = 0x2 then .call (fieldNNN w)
  else if op = 0x3 then .seImm (fieldX w) (fieldKK w)
  else if op = 0x4 then .sneImm (fieldX w) (fieldKK w)
  else if op = 0x5 then .seReg (fieldX w) (fieldY w)
  else if op = 0x6 then .ldImm (fieldX w) (fieldKK w)
  else if op = 0x7 then .addImm (fieldX w) (fieldKK w)
  else if op = 0x8 then decodeFamily8 w
  else if op = 0x9 then .sneReg (fieldX w) (fieldY w)
  else if op = 0xA then .ldI (fieldNNN w)
  else if op = 0xB then .jpV0 (fieldNNN w)
  else if op = 0xC then .rnd (fieldX w) (fieldKK w)
  else if op = 0xD then .drw (fieldX w) (fieldY w) (fieldN w)
  else if op = 0xE then decodeFamilyE w
  else decodeFamilyF w

/-- The big-endian word of two bytes, the one at the lower address first (20_memory.md R50). -/
def joinBytes (hi lo : Byte) : Word := BitVec.ofNat 16 (hi.toNat * 256 + lo.toNat)

/-- Why a byte sequence carries no instruction. No word is illegal (30_encoding.md R82). -/
inductive DecodeError
  /-- Fewer than two bytes are left: every instruction is one 16-bit word (30_encoding.md R70). -/
  | truncated
  deriving DecidableEq, Repr

/-- Decode the instruction at the head of a byte sequence, with the bytes after it. -/
def decode : List Byte → Except DecodeError (Instr × List Byte)
  | hi :: lo :: rest => .ok (decodeWord (joinBytes hi lo), rest)
  | [_] => .error .truncated
  | [] => .error .truncated

/-! ## The encoder -/

/-- The word of four nibbles, the top one first (30_encoding.md R73). -/
def nibbles (op a b c : Nat) : Word := BitVec.ofNat 16 (op * 4096 + a * 256 + b * 16 + c)

/-- Format A: op and a 12-bit address (30_encoding.md R73). -/
def wordA (op : Nat) (nnn : Word) : Word := BitVec.ofNat 16 (op * 4096 + nnn.toNat)

/-- Formats XK and XB: op, a register and a low byte (30_encoding.md R73). -/
def wordXK (op : Nat) (x : Reg) (kk : Nat) : Word := BitVec.ofNat 16 (op * 4096 + x.val * 256 + kk)

/-- The word of an instruction, ignored bits as the canonical words have them (30_encoding.md R79, R80); NOP is
0x8008 (R85). -/
def encode : Instr → Word
  | .cls => 0x00E0#16
  | .ret => 0x00EE#16
  | .jp nnn => wordA 0x1 nnn
  | .call nnn => wordA 0x2 nnn
  | .seImm x kk => wordXK 0x3 x kk.toNat
  | .sneImm x kk => wordXK 0x4 x kk.toNat
  | .seReg x y => nibbles 0x5 x.val y.val 0x0
  | .ldImm x kk => wordXK 0x6 x kk.toNat
  | .addImm x kk => wordXK 0x7 x kk.toNat
  | .ldReg x y => nibbles 0x8 x.val y.val 0x0
  | .orReg x y => nibbles 0x8 x.val y.val 0x1
  | .andReg x y => nibbles 0x8 x.val y.val 0x2
  | .xorReg x y => nibbles 0x8 x.val y.val 0x3
  | .addReg x y => nibbles 0x8 x.val y.val 0x4
  | .subReg x y => nibbles 0x8 x.val y.val 0x5
  | .shr x y => nibbles 0x8 x.val y.val 0x6
  | .subnReg x y => nibbles 0x8 x.val y.val 0x7
  | .shl x y => nibbles 0x8 x.val y.val 0xE
  | .sneReg x y => nibbles 0x9 x.val y.val 0x0
  | .ldI nnn => wordA 0xA nnn
  | .jpV0 nnn => wordA 0xB nnn
  | .rnd x kk => wordXK 0xC x kk.toNat
  | .drw x y n => nibbles 0xD x.val y.val n
  | .skp x => wordXK 0xE x 0x9E
  | .sknp x => wordXK 0xE x 0xA1
  | .ldVxDT x => wordXK 0xF x 0x07
  | .ldVxK x => wordXK 0xF x 0x0A
  | .ldDTVx x => wordXK 0xF x 0x15
  | .ldSTVx x => wordXK 0xF x 0x18
  | .addIVx x => wordXK 0xF x 0x1E
  | .ldFVx x => wordXK 0xF x 0x29
  | .ldBVx x => wordXK 0xF x 0x33
  | .ldMemVx x => wordXK 0xF x 0x55
  | .ldVxMem x => wordXK 0xF x 0x65
  | .nop => 0x8008#16

/-- The high byte of a word, stored at the lower address (20_memory.md R50). -/
def highByte (w : Word) : Byte := BitVec.ofNat 8 (bits w 15 8)

/-- The low byte of a word (20_memory.md R50). -/
def lowByte (w : Word) : Byte := BitVec.ofNat 8 (bits w 7 0)

/-- A word as the hardware stores it, high byte first (20_memory.md R50). -/
def wordBytes (w : Word) : List Byte := [highByte w, lowByte w]

/-- The instruction word of a row of the opcode table: the low `nbits` bits of `w`, the rest 0. -/
def tableWord (nbits w : Nat) : Word := BitVec.ofNat 16 (w % 2 ^ nbits)

/-- What the decoder reads from an instruction whose bits are `w`, numbered as the opcode table numbers them. -/
def decodeTableWord (nbits w : Nat) : Option Instr :=
  match decode (wordBytes (tableWord nbits w)) with
  | .ok (i, _) => some i
  | .error _ => none

end Sys2Proof
end

