-- ==== Sys2Proof/Config.lean ====
section
/-! DEFINITION. What this hardware fixes (00_scope.md R5): sizes and origins, the types of the spec's named
parameters, and the one free value, the random byte. The setting each parameter has on this hardware stands in
Sys2Proof/Machine/Settings.lean. -/

namespace Sys2Proof.Config

/-- MEM_SIZE: addresses 0x000 to 0xFFF (00_scope.md R5). -/
abbrev memSize : Nat := 4096

/-- LOAD_ORIGIN, which is also PC after reset (00_scope.md R5, 10_state.md R38). -/
abbrev loadOrigin : Nat := 0x200

/-- GLYPH_ORIGIN (00_scope.md R5). -/
abbrev glyphOrigin : Nat := 0x050

/-- GLYPH_COUNT glyphs of GLYPH_BYTES bytes: 80 bytes, 0x050 to 0x09F (00_scope.md R5). -/
abbrev glyphRomSize : Nat := 80

/-- GLYPH_BYTES (00_scope.md R5). -/
abbrev glyphBytes : Nat := 5

/-- STACK_DEPTH (00_scope.md R5). -/
abbrev stackDepth : Nat := 16

/-- DISPLAY_WIDTH (00_scope.md R5). -/
abbrev displayWidth : Nat := 64

/-- DISPLAY_HEIGHT (00_scope.md R5). -/
abbrev displayHeight : Nat := 32

/-- NUM_KEYS (00_scope.md R5). -/
abbrev numKeys : Nat := 16

/-- MAX_PROGRAM_BYTES = 4096 - 0x200 (00_scope.md R5). -/
abbrev maxProgramBytes : Nat := 3584

/-- DRAW_EDGE_POLICY (43_display.md R142). The third policy the spec names, `flat`, is left out: it indexes outside
the buffer, which the spec calls undefined (92_eei_decisions.md D8, log entry 9). -/
inductive DrawEdgePolicy
  | clip
  | wrap
  deriving DecidableEq, Repr

/-- FLAG_WRITE_ORDER (92_eei_decisions.md section 2). -/
inductive FlagWriteOrder
  | flagLast
  | flagFirst
  deriving DecidableEq, Repr

/-- SHIFT_SOURCE (92_eei_decisions.md D10). -/
inductive ShiftSource
  | vx
  | vy
  deriving DecidableEq, Repr

/-- KEY_INDEX_POLICY (44_keypad.md R153). -/
inductive KeyIndexPolicy
  | fault
  | mask
  deriving DecidableEq, Repr

/-- ADDRESS_POLICY (92_eei_decisions.md D4). -/
inductive AddressPolicy
  | fault
  | mask
  deriving DecidableEq, Repr

/-- STACK_POLICY (92_eei_decisions.md D5): the spec describes this one setting. -/
inductive StackPolicy
  | fault
  deriving DecidableEq, Repr

/-- THE FREE VALUE of the model: the byte that draw number `drawn` of the generator gives under `seed`
(10_state.md R35: "successive draws are bound by no law the model may rely on"). No body: nothing in Lean can
evaluate it. Log entry 2. -/
opaque randomByte : (seed drawn : Nat) → Byte

end Sys2Proof.Config
end

