-- ==== Sys2Proof/Machine/State.lean ====
section
/-! DEFINITION. The state of the core as plain data (10_state.md R20), its value after reset (R38), and the reasons a
step can stop. -/

namespace Sys2Proof.Machine

/-- MEM as the list of the cells that differ from their reset contents, addresses strictly rising
(10_state.md R21). `Memory.wf` in Ops.lean is the canonical form. -/
structure Memory where
  cells : List Host.Cell
  deriving DecidableEq, Repr

/-- DISP: 32 rows of 64 cells, each off (`false`) or on (`true`) (10_state.md R32). -/
structure Display where
  rows : Vector (Vector Bool 64) 32
  deriving DecidableEq, Repr

/-- RNG, opaque in the spec (10_state.md R35): the seed of the last reseeding, and how many bytes have been drawn. The
count is the model's own field; it makes each draw a fresh free value (log entry 2). -/
structure Rng where
  seed  : Nat
  drawn : Nat
  deriving DecidableEq, Repr

/-- The complete state of the core (10_state.md R20). -/
structure State where
  /-- MEM (R21) -/
  mem       : Memory
  /-- V0 to VF (R24, R25) -/
  v         : Vector Byte 16
  /-- I (R26) -/
  i         : Word
  /-- PC (R27) -/
  pc        : Word
  /-- SP (R28) -/
  sp        : Word
  /-- STACK (R29) -/
  stack     : Vector Word 16
  /-- DT (R30) -/
  dt        : Byte
  /-- ST (R30) -/
  st        : Byte
  /-- OPCODE (R31) -/
  opcode    : Word
  /-- DISP (R32) -/
  disp      : Display
  /-- KEY, bit i for key i, 1 = pressed (R33) -/
  key       : BitVec 16
  /-- DIRTY (R34) -/
  dirty     : Bool
  /-- RNG (R35) -/
  rng       : Rng
  /-- FAULT, the latched code, 0 = none (R36) -/
  fault     : BitVec 3
  /-- FAULT_INFO (R36) -/
  faultInfo : Word
  deriving DecidableEq, Repr

/-- Why a step stops. The conditions of 60_exceptions.md R180 are none of these: raising one is a next state with the
latch written (R182). -/
inductive Fault
  /-- Raised by RET in a state whose SP is above 16: STACK has no slot SP - 1 (10_state.md R28, R29). No run
  reaches such a state (R41). Safe: the model stops where the spec says nothing. Log entry 10. -/
  | noSuchStackSlot
  deriving DecidableEq, Repr

/-- Why the model gives no meaning. -/
inductive Refusal
  /-- Raised by `exec` for an instruction without a meaning yet. Safe. No arm raises it. -/
  | notModelled (mnemonic : String)
  /-- Raised by the event `Restore` for a value no `Snapshot` can have made: "any other value is outside this spec
  (refuse)" (60_exceptions.md R202). No instruction raises it. Safe. Log entry 14. -/
  | restoreOfNoSnapshot
  deriving DecidableEq, Repr

/-- The state right after Reset (10_state.md R38, 70_reset_and_hazards.md R210). Nothing is listed in MEM: an unlisted
address reads as its reset contents (`Memory.unlisted`). The seed and the count of draws are log entry 3. -/
def State.reset : State where
  mem := ⟨[]⟩
  v := Vector.replicate 16 0
  i := 0
  pc := BitVec.ofNat 16 Config.loadOrigin
  sp := 0
  stack := Vector.replicate 16 0
  dt := 0
  st := 0
  opcode := 0
  disp := ⟨Vector.replicate 32 (Vector.replicate 64 false)⟩
  key := 0
  dirty := true
  rng := ⟨0, 0⟩
  fault := 0
  faultInfo := 0

end Sys2Proof.Machine
end

