-- ==== Sys2Proof/Machine/Settings.lean ====
section
/-! DEFINITION. The setting each named parameter has on this hardware (00_scope.md R5, 93_implementation_defined.md
section 3), and the glyph table. A meaning never names a setting's value: it goes through the operation that reads the
parameter. -/

namespace Sys2Proof.Config

/-- DRAW_EDGE_POLICY = `clip` (43_display.md R142). -/
def drawEdgePolicy : DrawEdgePolicy := .clip

/-- FLAG_WRITE_ORDER = `flag_last` (10_state.md R25). -/
def flagWriteOrder : FlagWriteOrder := .flagLast

/-- SHIFT_SOURCE = `vx` (42_alu.md R127). -/
def shiftSource : ShiftSource := .vx

/-- KEY_INDEX_POLICY = `fault` (44_keypad.md R153). -/
def keyIndexPolicy : KeyIndexPolicy := .fault

/-- ADDRESS_POLICY = `fault`: checked, no masking, no wrap (20_memory.md R53). -/
def addressPolicy : AddressPolicy := .fault

/-- STACK_POLICY = `fault` (60_exceptions.md R180). -/
def stackPolicy : StackPolicy := .fault

/-- GLYPH_ROM, digits 0 to F in order, row 0 first (10_state.md R23). -/
def glyphRom : List Byte :=
  [0xF0, 0x90, 0x90, 0x90, 0xF0] ++ [0x20, 0x60, 0x20, 0x20, 0x70] ++
  [0xF0, 0x10, 0xF0, 0x80, 0xF0] ++ [0xF0, 0x10, 0xF0, 0x10, 0xF0] ++
  [0x90, 0x90, 0xF0, 0x10, 0x10] ++ [0xF0, 0x80, 0xF0, 0x10, 0xF0] ++
  [0xF0, 0x80, 0xF0, 0x90, 0xF0] ++ [0xF0, 0x10, 0x20, 0x40, 0x40] ++
  [0xF0, 0x90, 0xF0, 0x90, 0xF0] ++ [0xF0, 0x90, 0xF0, 0x10, 0xF0] ++
  [0xF0, 0x90, 0xF0, 0x90, 0x90] ++ [0xE0, 0x90, 0xE0, 0x90, 0xE0] ++
  [0xF0, 0x80, 0x80, 0x80, 0xF0] ++ [0xE0, 0x90, 0x90, 0x90, 0xE0] ++
  [0xF0, 0x80, 0xF0, 0x80, 0xF0] ++ [0xF0, 0x80, 0xF0, 0x80, 0x80]

end Sys2Proof.Config
end

