-- ==== Sys2Proof/Machine/Ops.lean ====
section
/-! DEFINITION. The named operations over memory, registers, stack and display that the meanings share, and raising a
fault. -/

namespace Sys2Proof.Machine

/-! ## Memory (20_memory.md) -/

/-- What an address that MEM does not list reads as: its reset contents, the glyph table at 0x050 to 0x09F and 0
elsewhere (10_state.md R22, R38; 70_reset_and_hazards.md R210). -/
def Memory.unlisted (a : Nat) : Byte :=
  if Config.glyphOrigin ≤ a ∧ a < Config.glyphOrigin + Config.glyphRomSize then
    Config.glyphRom.getD (a - Config.glyphOrigin) 0
  else 0

/-- The byte a list of cells gives at an address. -/
def Memory.readCells : List Host.Cell → Nat → Byte
  | [], a => Memory.unlisted a
  | (k, b) :: rest, a => if k = a then b else Memory.readCells rest a

/-- The list with the byte at `a` set to `b`, kept canonical: a cell equal to its reset contents is not listed. -/
def Memory.writeCells : List Host.Cell → Nat → Byte → List Host.Cell
  | [], a, b => if b = Memory.unlisted a then [] else [(a, b)]
  | (k, c) :: rest, a, b =>
    if a < k then
      if b = Memory.unlisted a then (k, c) :: rest else (a, b) :: (k, c) :: rest
    else if a = k then
      if b = Memory.unlisted a then rest else (a, b) :: rest
    else (k, c) :: Memory.writeCells rest a b

/-- `MemRead(addr, 1)` (00_scope.md R8, 20_memory.md R54). -/
def Memory.read (m : Memory) (a : Nat) : Byte := Memory.readCells m.cells a

/-- `MemWrite(addr, 1, v)` (00_scope.md R8, 20_memory.md R54). -/
def Memory.write (m : Memory) (a : Nat) (b : Byte) : Memory := ⟨Memory.writeCells m.cells a b⟩

/-- The canonical form: addresses in the address space and strictly rising, no cell equal to its reset contents. -/
abbrev Memory.wf (m : Memory) : Prop :=
  m.cells.Pairwise (fun c d => c.1 < d.1) ∧
    ∀ c ∈ m.cells, c.1 < Config.memSize ∧ c.2 ≠ Memory.unlisted c.1

/-- The lowest address above 0xFFF among `base, …, base + len - 1`, if there is one (20_memory.md R53). Under the other
setting of ADDRESS_POLICY no access faults (92_eei_decisions.md D4). -/
def outOfRange (base len : Nat) : Option Nat :=
  match Config.addressPolicy with
  | .fault => if 1 ≤ len ∧ base + len - 1 > 0xFFF then some (max base 0x1000) else none
  | .mask => none

/-- The cell an address reaches: itself, since there is no masking (20_memory.md R53); under the other setting of
ADDRESS_POLICY its low 12 bits (92_eei_decisions.md D4). -/
def cellAddress (a : Nat) : Nat :=
  match Config.addressPolicy with
  | .fault => a
  | .mask => a % Config.memSize

/-- The `n` bytes at `base, base + 1, …`, lowest address first. -/
def readBytes (m : Memory) (base : Nat) : Nat → List Byte
  | 0 => []
  | n + 1 => m.read (cellAddress base) :: readBytes m (base + 1) n

/-- Memory after the bytes are written at `base, base + 1, …` in that order. -/
def writeBytes (m : Memory) (base : Nat) : List Byte → Memory
  | [] => m
  | b :: bs => writeBytes (m.write (cellAddress base) b) (base + 1) bs

/-- The state after the bytes are written to MEM at `base, base + 1, …`. -/
def State.storeBytes (s : State) (base : Nat) (bs : List Byte) : State :=
  { s with mem := writeBytes s.mem base bs }

/-! ## Faults (60_exceptions.md) -/

/-- The conditions of 60_exceptions.md R180. -/
inductive Condition
  /-- Reported by `Load` only, never latched (R187). -/
  | programTooLarge
  /-- Raised by the fetch, DRW, LD B, LD [I] and LD Vx,[I] (R53). -/
  | addressOutOfRange
  /-- Raised by CALL (R94). -/
  | stackOverflow
  /-- Raised by RET (R92). -/
  | stackUnderflow
  /-- Raised by SKP and SKNP (R153). -/
  | keyIndexOutOfRange
  deriving DecidableEq, Repr

/-- The code of a condition (60_exceptions.md R180). -/
def Condition.code : Condition → BitVec 3
  | .programTooLarge => 1
  | .addressOutOfRange => 2
  | .stackOverflow => 3
  | .stackUnderflow => 4
  | .keyIndexOutOfRange => 5

/-- Fault entry, `raise F(info)`: the code and the detail are latched; PC, OPCODE and everything else keep their value
(60_exceptions.md R182). -/
def raise (c : Condition) (info : Nat) (s : State) : State :=
  { s with fault := c.code, faultInfo := BitVec.ofNat 16 info }

/-- Run `k` when all of `base, …, base + len - 1` are in the address space; otherwise raise AddressOutOfRange with the
lowest that is not, before anything changes (20_memory.md R53, 60_exceptions.md R182). -/
def withRange (base len : Nat) (s : State) (k : Host.Outcome State Fault Refusal) :
    Host.Outcome State Fault Refusal :=
  match outOfRange base len with
  | some a => .next (raise .addressOutOfRange a s)
  | none => k

/-! ## The fetch (40_control_flow.md R90) -/

/-- The address the fetch reports when it leaves the address space: `PC > 0x0FFE` faults with `max(PC, 0x1000)`. -/
def fetchFault (s : State) : Option Nat := outOfRange s.pc.toNat 2

/-- `MemRead(PC, 2)`, big-endian, whatever the parity of PC (20_memory.md R50, R52). -/
def fetchWord (s : State) : Word :=
  joinBytes (s.mem.read (cellAddress s.pc.toNat)) (s.mem.read (cellAddress (s.pc.toNat + 1)))

/-- `OPCODE <- w` (10_state.md R31). -/
def latchOpcode (w : Word) (s : State) : State := { s with opcode := w }

/-- The state with the word `w` at PC, ready to be fetched by the next step: when the fetch could not happen at all, the
latch is cleared and PC moved to the load origin first. -/
def placeWord (w : Word) (s : State) : State :=
  let s := if s.fault = 0 then s else { s with fault := 0, faultInfo := 0 }
  let s := if s.pc.toNat ≤ 0xFFE then s else { s with pc := BitVec.ofNat 16 Config.loadOrigin }
  s.storeBytes s.pc.toNat (wordBytes w)

/-! ## Registers (10_state.md R24, R27) -/

/-- `V[r]` (10_state.md R24). -/
def State.getV (s : State) (r : Reg) : Byte := s.v[r.val]

/-- `V[r] <- b` (10_state.md R24). -/
def State.setV (s : State) (r : Reg) (b : Byte) : State := { s with v := s.v.set r.val b }

/-- `V[i] <- b` for the bytes in order, from register number `i` on; registers past VF do not exist and take none. -/
def loadRegs (v : Vector Byte 16) (i : Nat) : List Byte → Vector Byte 16
  | [] => v
  | b :: bs => loadRegs (v.setIfInBounds i b) (i + 1) bs

/-- `npc`, the already-advanced program counter; `exec` runs with PC at the instruction (40_control_flow.md R90). -/
def State.npc (s : State) : Word := s.pc + 2

/-- `PC <- npc` (40_control_flow.md R91). -/
def advance (s : State) : State := { s with pc := s.npc }

/-- `PC <- npc + 2` when the condition holds, else `PC <- npc` (40_control_flow.md R91, R95). -/
def skipIf (c : Bool) (s : State) : State := { s with pc := if c then s.npc + 2 else s.npc }

/-! ## The call stack (10_state.md R28, R29) -/

/-- Whether CALL overflows (40_control_flow.md R94). -/
def stackFull (s : State) : Bool :=
  match Config.stackPolicy with
  | .fault => decide (s.sp.toNat ≥ Config.stackDepth)

/-- Whether RET underflows (40_control_flow.md R92). -/
def stackEmpty (s : State) : Bool :=
  match Config.stackPolicy with
  | .fault => decide (s.sp.toNat = 0)

/-- `STACK[SP] <- a; SP <- SP + 1` (40_control_flow.md R94). -/
def push (a : Word) (s : State) : State :=
  { s with stack := s.stack.setIfInBounds s.sp.toNat a, sp := s.sp + 1 }

/-- The word RET pops, `STACK[SP - 1]`, if there is such a slot (40_control_flow.md R92). -/
def topOfStack (s : State) : Option Word := s.stack[s.sp.toNat - 1]?

/-! ## The random source (10_state.md R35) -/

/-- `draw_byte()`: the free byte of the next draw (41_immediate_and_random.md R113). -/
def drawnByte (s : State) : Byte := Config.randomByte s.rng.seed s.rng.drawn

/-- One draw is used up. -/
def countDraw (s : State) : State := { s with rng := { s.rng with drawn := s.rng.drawn + 1 } }

/-! ## The display (10_state.md R32, 43_display.md) -/

/-- `DISP[y][x]`; there is no cell, hence nothing on, outside the 64 by 32 grid. -/
def Display.get (d : Display) (x y : Nat) : Bool :=
  if h : x < 64 ∧ y < 32 then (d.rows[y]'h.2)[x]'h.1 else false

/-- `DISP[y][x] <- b`. -/
def Display.set (d : Display) (x y : Nat) (b : Bool) : Display :=
  if h : x < 64 ∧ y < 32 then ⟨d.rows.set y ((d.rows[y]'h.2).set x b h.1) h.2⟩ else d

/-- Every cell off (43_display.md R140). -/
def Display.blank : Display := ⟨Vector.replicate 32 (Vector.replicate 64 false)⟩

/-- The cell a sprite pixel falls on, if any (43_display.md R142). -/
def pixelCell (px py : Nat) : Option (Nat × Nat) :=
  match Config.drawEdgePolicy with
  | .clip => if px ≤ 63 ∧ py ≤ 31 then some (px, py) else none
  | .wrap => some (px % Config.displayWidth, py % Config.displayHeight)

/-- A display being drawn on, and whether a cell has gone from on to off so far. -/
structure Canvas where
  disp : Display
  hit  : Bool
  deriving DecidableEq, Repr

/-- Toggle the cell under a set sprite pixel; on to off is a collision (43_display.md R141). -/
def Canvas.toggle (c : Canvas) (px py : Nat) : Canvas :=
  match pixelCell px py with
  | some (x, y) => ⟨c.disp.set x y (!c.disp.get x y), c.hit || c.disp.get x y⟩
  | none => c

/-- Draw one sprite byte from column `x0 + col` on, the most significant bit leftmost: columns `col` to 7, `left` of
them (43_display.md R141). -/
def Canvas.drawBits (c : Canvas) (x0 py : Nat) (b : Byte) (col : Nat) : Nat → Canvas
  | 0 => c
  | left + 1 =>
    Canvas.drawBits (if b.getLsbD (7 - col) then c.toggle (x0 + col) py else c) x0 py b (col + 1) left

/-- Draw the sprite's bytes one under the other, from row `py` on (43_display.md R141). -/
def Canvas.drawRows (c : Canvas) (x0 py : Nat) : List Byte → Canvas
  | [] => c
  | b :: bs => Canvas.drawRows (c.drawBits x0 py b 0 8) x0 (py + 1) bs

/-! ## The keys (10_state.md R33) -/

/-- `KEY[k] = 1`. -/
def keyPressed (s : State) (k : Nat) : Bool := s.key.getLsbD k

/-- The key number a register's value names, if it names one (44_keypad.md R153; 92_eei_decisions.md D13). -/
def keyNumber (b : Byte) : Option Nat :=
  match Config.keyIndexPolicy with
  | .fault => if b.toNat > 15 then none else some b.toNat
  | .mask => some (b.toNat % Config.numKeys)

/-- The lowest pressed key of `k, k + 1, …`, `left` of them: the scan "in fixed ascending priority order"
(44_keypad.md R152). -/
def firstKey (s : State) (k : Nat) : Nat → Option Nat
  | 0 => none
  | left + 1 => if keyPressed s k then some k else firstKey s (k + 1) left

end Sys2Proof.Machine
end

