-- ==== Sys2Proof/Machine/Flags.lean ====
section
/-! DEFINITION. Every flag computation of the instruction set (10_state.md R25, 42_alu.md R130), on latched operands, and
the order in which a result and its flag are written. -/

namespace Sys2Proof.Machine

/-- A flag as the byte VF takes: "always written as 0 or 1" (10_state.md R25). -/
def flagByte (c : Bool) : Byte := if c then 1 else 0

/-- ADD: the unsigned sum exceeds 255 (42_alu.md R125). -/
def carryFlag (a b : Byte) : Bool := decide (a.toNat + b.toNat > 255)

/-- SUB and SUBN: minuend strictly greater than subtrahend; equal operands give 0 (42_alu.md R126, R128). -/
def noBorrowFlag (minuend subtrahend : Byte) : Bool := decide (minuend.toNat > subtrahend.toNat)

/-- SHR: the bit shifted out, `a[0]` (42_alu.md R127). -/
def shiftedOutRight (a : Byte) : Bool := a.getLsbD 0

/-- SHL: the bit shifted out, `a[7]` (42_alu.md R129). -/
def shiftedOutLeft (a : Byte) : Bool := a.getLsbD 7

/-- ADD I: the exact sum of I and the register exceeds 0xFFF (45_timer_index_memory.md R163). -/
def indexOverflowFlag (a : Word) (b : Byte) : Bool := decide (a.toNat + b.toNat > 0x0FFF)

/-- `VF <- flag`. -/
def setFlag (c : Bool) (s : State) : State := s.setV vf (flagByte c)

/-- Write a result to V[x] and a flag to VF: the result first and the flag last on this hardware (10_state.md R25,
42_alu.md R120); the other setting of FLAG_WRITE_ORDER is 92_eei_decisions.md section 2. -/
def writeResultAndFlag (x : Reg) (result : Byte) (flag : Bool) (s : State) : State :=
  match Config.flagWriteOrder with
  | .flagLast => setFlag flag (s.setV x result)
  | .flagFirst => (setFlag flag s).setV x result

end Sys2Proof.Machine
end

