-- ==== Sys2Proof/Machine/Operands.lean ====
section
/-! DEFINITION. Every operand form: what an instruction reads before it writes (00_scope.md R8, 30_encoding.md R72,
45_timer_index_memory.md R168). -/

namespace Sys2Proof.Machine

/-- The value SHR and SHL shift: V[x], the field y ignored (42_alu.md R127, R129); under the other setting of
SHIFT_SOURCE, V[y] (92_eei_decisions.md D10). -/
def shiftOperand (x y : Reg) (s : State) : Byte :=
  match Config.shiftSource with
  | .vx => s.getV x
  | .vy => s.getV y

/-- The base address of a memory operand: I, never modified (45_timer_index_memory.md R168). -/
def indexBase (s : State) : Nat := s.i.toNat

/-- The horizontal origin `x0 = V[x] mod 64` (43_display.md R141). -/
def originX (x : Reg) (s : State) : Nat := (s.getV x).toNat % Config.displayWidth

/-- The vertical origin `y0 = V[y] mod 32` (43_display.md R141). -/
def originY (y : Reg) (s : State) : Nat := (s.getV y).toNat % Config.displayHeight

/-- Hundreds, tens and ones of a value, hundreds first (45_timer_index_memory.md R165). -/
def bcdDigits (b : Byte) : List Byte :=
  [BitVec.ofNat 8 (b.toNat / 100), BitVec.ofNat 8 (b.toNat / 10 % 10), BitVec.ofNat 8 (b.toNat % 10)]

/-- V[0] to V[x], inclusive, lowest first (45_timer_index_memory.md R166). -/
def registersUpTo (x : Reg) (s : State) : List Byte := s.v.toList.take (x.val + 1)

/-- The address of the glyph of a digit, on the whole byte (45_timer_index_memory.md R164). -/
def glyphAddress (b : Byte) : Word := BitVec.ofNat 16 (Config.glyphOrigin + Config.glyphBytes * b.toNat)

/-- `(V[0] + nnn) mod 65536` (40_control_flow.md R99). -/
def indexedTarget (nnn : Word) (s : State) : Word := BitVec.ofNat 16 ((s.getV 0).toNat + nnn.toNat)

/-- `(I + V[x]) mod 65536`, not masked to 12 bits (45_timer_index_memory.md R163). -/
def indexSum (a : Word) (b : Byte) : Word := BitVec.ofNat 16 (a.toNat + b.toNat)

end Sys2Proof.Machine
end

