-- ==== Sys2Proof/Machine/Alu.lean ====
section
/-! DEFINITION. The register-to-register ALU family (42_alu.md R120 to R130). -/

namespace Sys2Proof.Machine

/-- LD Vx, Vy (R121). -/
def execLdReg (x y : Reg) (s : State) : Host.Outcome State Fault Refusal :=
  .next (advance (s.setV x (s.getV y)))

/-- OR Vx, Vy: VF is not touched unless it is the destination (R122). -/
def execOrReg (x y : Reg) (s : State) : Host.Outcome State Fault Refusal :=
  .next (advance (s.setV x (s.getV x ||| s.getV y)))

/-- AND Vx, Vy (R123). -/
def execAndReg (x y : Reg) (s : State) : Host.Outcome State Fault Refusal :=
  .next (advance (s.setV x (s.getV x &&& s.getV y)))

/-- XOR Vx, Vy (R124). -/
def execXorReg (x y : Reg) (s : State) : Host.Outcome State Fault Refusal :=
  .next (advance (s.setV x (s.getV x ^^^ s.getV y)))

/-- ADD Vx, Vy (R125). -/
def execAddReg (x y : Reg) (s : State) : Host.Outcome State Fault Refusal :=
  let a := s.getV x
  let b := s.getV y
  .next (advance (writeResultAndFlag x (a + b) (carryFlag a b) s))

/-- SUB Vx, Vy: Vx is the minuend (R126). -/
def execSubReg (x y : Reg) (s : State) : Host.Outcome State Fault Refusal :=
  let a := s.getV x
  let b := s.getV y
  .next (advance (writeResultAndFlag x (a - b) (noBorrowFlag a b) s))

/-- SHR Vx (R127). -/
def execShr (x y : Reg) (s : State) : Host.Outcome State Fault Refusal :=
  let a := shiftOperand x y s
  .next (advance (writeResultAndFlag x (a >>> 1) (shiftedOutRight a) s))

/-- SUBN Vx, Vy: Vy is the minuend (R128). -/
def execSubnReg (x y : Reg) (s : State) : Host.Outcome State Fault Refusal :=
  let a := s.getV x
  let b := s.getV y
  .next (advance (writeResultAndFlag x (b - a) (noBorrowFlag b a) s))

/-- SHL Vx (R129). -/
def execShl (x y : Reg) (s : State) : Host.Outcome State Fault Refusal :=
  let a := shiftOperand x y s
  .next (advance (writeResultAndFlag x (a <<< 1) (shiftedOutLeft a) s))

end Sys2Proof.Machine
end

