-- ==== Sys2Proof/Machine/ControlFlow.lean ====
section
/-! DEFINITION. Control transfer and the no-op (40_control_flow.md R92 to R100). -/

namespace Sys2Proof.Machine

/-- RET (R92). -/
def execRet (s : State) : Host.Outcome State Fault Refusal :=
  if stackEmpty s then .next (raise .stackUnderflow s.sp.toNat s)
  else
    match topOfStack s with
    | some target => .next { s with sp := s.sp - 1, pc := target }
    | none => .fault .noSuchStackSlot

/-- JP nnn (R93). -/
def execJp (nnn : Word) (s : State) : Host.Outcome State Fault Refusal := .next { s with pc := nnn }

/-- CALL nnn (R94). -/
def execCall (nnn : Word) (s : State) : Host.Outcome State Fault Refusal :=
  if stackFull s then .next (raise .stackOverflow s.sp.toNat s)
  else .next { push s.npc s with pc := nnn }

/-- SE Vx, kk (R95). -/
def execSeImm (x : Reg) (kk : Byte) (s : State) : Host.Outcome State Fault Refusal :=
  .next (skipIf (s.getV x == kk) s)

/-- SNE Vx, kk (R96). -/
def execSneImm (x : Reg) (kk : Byte) (s : State) : Host.Outcome State Fault Refusal :=
  .next (skipIf (s.getV x != kk) s)

/-- SE Vx, Vy (R97). -/
def execSeReg (x y : Reg) (s : State) : Host.Outcome State Fault Refusal :=
  .next (skipIf (s.getV x == s.getV y) s)

/-- SNE Vx, Vy (R98). -/
def execSneReg (x y : Reg) (s : State) : Host.Outcome State Fault Refusal :=
  .next (skipIf (s.getV x != s.getV y) s)

/-- JP V0, nnn (R99). -/
def execJpV0 (nnn : Word) (s : State) : Host.Outcome State Fault Refusal :=
  .next { s with pc := indexedTarget nnn s }

/-- NOP, every unrecognised word (R100). -/
def execNop (s : State) : Host.Outcome State Fault Refusal := .next (advance s)

end Sys2Proof.Machine
end

