-- ==== Sys2Proof/Machine/DisplayOps.lean ====
section
/-! DEFINITION. The display instructions (43_display.md R140 to R143). -/

namespace Sys2Proof.Machine

/-- CLS: DIRTY is set even when the display was clear (R140). -/
def execCls (s : State) : Host.Outcome State Fault Refusal :=
  .next (advance { s with disp := Display.blank, dirty := true })

/-- DRW Vx, Vy, n: all n rows are range-checked first, the operands are latched, VF ends as the collision (R141). -/
def execDrw (x y : Reg) (n : Nat) (s : State) : Host.Outcome State Fault Refusal :=
  withRange (indexBase s) n s <|
    let c := Canvas.drawRows ⟨s.disp, false⟩ (originX x s) (originY y s) (readBytes s.mem (indexBase s) n)
    .next (advance { setFlag c.hit s with disp := c.disp, dirty := true })

end Sys2Proof.Machine
end

