-- ==== Sys2Proof/Machine/ImmediateRandom.lean ====
section
/-! DEFINITION. Immediate loads, immediate add, index load and the random byte (41_immediate_and_random.md R110 to
R113). -/

namespace Sys2Proof.Machine

/-- LD Vx, kk (R110). -/
def execLdImm (x : Reg) (kk : Byte) (s : State) : Host.Outcome State Fault Refusal :=
  .next (advance (s.setV x kk))

/-- ADD Vx, kk: wraps, no flag (R111). -/
def execAddImm (x : Reg) (kk : Byte) (s : State) : Host.Outcome State Fault Refusal :=
  .next (advance (s.setV x (s.getV x + kk)))

/-- LD I, nnn: no range check here (R112). -/
def execLdI (nnn : Word) (s : State) : Host.Outcome State Fault Refusal :=
  .next (advance { s with i := nnn })

/-- RND Vx, kk: one draw, ANDed with the immediate (R113). -/
def execRnd (x : Reg) (kk : Byte) (s : State) : Host.Outcome State Fault Refusal :=
  .next (advance ((countDraw s).setV x (drawnByte s &&& kk)))

end Sys2Proof.Machine
end

