-- ==== Sys2Proof/Machine/Keypad.lean ====
section
/-! DEFINITION. The keypad instructions (44_keypad.md R150 to R153). -/

namespace Sys2Proof.Machine

/-- SKP Vx (R150). -/
def execSkp (x : Reg) (s : State) : Host.Outcome State Fault Refusal :=
  match keyNumber (s.getV x) with
  | some k => .next (skipIf (keyPressed s k) s)
  | none => .next (raise .keyIndexOutOfRange (s.getV x).toNat s)

/-- SKNP Vx (R151). -/
def execSknp (x : Reg) (s : State) : Host.Outcome State Fault Refusal :=
  match keyNumber (s.getV x) with
  | some k => .next (skipIf (!keyPressed s k) s)
  | none => .next (raise .keyIndexOutOfRange (s.getV x).toNat s)

/-- LD Vx, K: with no key pressed PC goes back to this instruction, `(npc - 2) mod 65536` (R152). -/
def execLdVxK (x : Reg) (s : State) : Host.Outcome State Fault Refusal :=
  match firstKey s 0 Config.numKeys with
  | some k => .next (advance (s.setV x (BitVec.ofNat 8 k)))
  | none => .next { s with pc := s.npc - 2 }

end Sys2Proof.Machine
end

