-- ==== Sys2Proof/Machine/TimerIndexMemory.lean ====
section
/-! DEFINITION. Timer transfers, index arithmetic, BCD and block memory (45_timer_index_memory.md R160 to R168). -/

namespace Sys2Proof.Machine

/-- LD Vx, DT (R160). -/
def execLdVxDT (x : Reg) (s : State) : Host.Outcome State Fault Refusal :=
  .next (advance (s.setV x s.dt))

/-- LD DT, Vx (R161). -/
def execLdDTVx (x : Reg) (s : State) : Host.Outcome State Fault Refusal :=
  .next (advance { s with dt := s.getV x })

/-- LD ST, Vx (R162). -/
def execLdSTVx (x : Reg) (s : State) : Host.Outcome State Fault Refusal :=
  .next (advance { s with st := s.getV x })

/-- ADD I, Vx: the flag is that of the exact sum of the original operands (R163). -/
def execAddIVx (x : Reg) (s : State) : Host.Outcome State Fault Refusal :=
  let a := s.i
  let b := s.getV x
  .next (advance (setFlag (indexOverflowFlag a b) { s with i := indexSum a b }))

/-- LD F, Vx (R164). -/
def execLdFVx (x : Reg) (s : State) : Host.Outcome State Fault Refusal :=
  .next (advance { s with i := glyphAddress (s.getV x) })

/-- LD B, Vx (R165). -/
def execLdBVx (x : Reg) (s : State) : Host.Outcome State Fault Refusal :=
  withRange (indexBase s) 3 s <|
    .next (advance (s.storeBytes (indexBase s) (bcdDigits (s.getV x))))

/-- LD [I], Vx: V[0] to V[x] inclusive (R166). -/
def execLdMemVx (x : Reg) (s : State) : Host.Outcome State Fault Refusal :=
  withRange (indexBase s) (x.val + 1) s <|
    .next (advance (s.storeBytes (indexBase s) (registersUpTo x s)))

/-- LD Vx, [I]: V[0] to V[x] inclusive (R167). -/
def execLdVxMem (x : Reg) (s : State) : Host.Outcome State Fault Refusal :=
  withRange (indexBase s) (x.val + 1) s <|
    .next (advance { s with v := loadRegs s.v 0 (readBytes s.mem (indexBase s) (x.val + 1)) })

end Sys2Proof.Machine
end

