-- ==== Sys2Proof/Machine/Step.lean ====
section
/-! DEFINITION. The event `Step`, one fetch-decode-execute cycle (40_control_flow.md R90). -/

namespace Sys2Proof.Machine

/-- `Step` (R90). While a fault is latched nothing changes (60_exceptions.md R183). A fetch fault leaves OPCODE as it
was; otherwise OPCODE takes the fetched word and the decoded instruction runs. -/
def step (s : State) : Host.Outcome State Fault Refusal :=
  if s.fault ≠ 0 then .next s
  else
    match fetchFault s with
    | some a => .next (raise .addressOutOfRange a s)
    | none => exec (decodeWord (fetchWord s)) (latchOpcode (fetchWord s) s)

/-- The state with an instruction of the opcode table stored where the next step fetches it (log entry 13). -/
def State.withFetchWord (s : State) (nbits w : Nat) : State := placeWord (tableWord nbits w) s

end Sys2Proof.Machine
end

