-- ==== Sys2Proof/Machine/Events.lean ====
section
/-! DEFINITION. The eight events of the core (00_scope.md R4), a run of them (R10), and the ports the host reads between
events. -/

namespace Sys2Proof.Machine

/-! ## The legal states (10_state.md R41, 60_exceptions.md R180) -/

/-- FAULT_INFO is what 60_exceptions.md R180 says for the latched code; codes 1, 6 and 7 are never latched. An address is
reported modulo 65536 and comes from a 16-bit register, so it is 0x1000 or more. -/
abbrev legalLatch (code : BitVec 3) (info : Word) : Prop :=
  (code = 0 ∧ info = 0) ∨ (code = 2 ∧ 0x1000 ≤ info.toNat) ∨ (code = 3 ∧ info = 16) ∨
    (code = 4 ∧ info = 0) ∨ (code = 5 ∧ 16 ≤ info.toNat ∧ info.toNat ≤ 255)

/-- What holds in every state a run reaches: MEM canonical and inside the address space, 0 ≤ SP ≤ 16, a legal latch.
The other bounds of 10_state.md R41 are the fields' types. -/
abbrev State.legal (s : State) : Prop :=
  s.mem.wf ∧ s.sp.toNat ≤ 16 ∧ legalLatch s.fault s.faultInfo

/-! ## Snapshots (60_exceptions.md R201, R202) -/

/-- A snapshot: everything but RNG (60_exceptions.md R201). -/
structure Snapshot where
  mem       : Memory
  v         : Vector Byte 16
  i         : Word
  pc        : Word
  sp        : Word
  stack     : Vector Word 16
  dt        : Byte
  st        : Byte
  opcode    : Word
  disp      : Display
  key       : BitVec 16
  dirty     : Bool
  fault     : BitVec 3
  faultInfo : Word
  deriving DecidableEq, Repr

/-- `Snapshot` (60_exceptions.md R201). -/
def takeSnapshot (s : State) : Snapshot where
  mem := s.mem
  v := s.v
  i := s.i
  pc := s.pc
  sp := s.sp
  stack := s.stack
  dt := s.dt
  st := s.st
  opcode := s.opcode
  disp := s.disp
  key := s.key
  dirty := s.dirty
  fault := s.fault
  faultInfo := s.faultInfo

/-- Every item of the snapshot is written back but DIRTY, which is set; RNG is left as it is (60_exceptions.md R202). -/
def restoreFrom (p : Snapshot) (s : State) : State where
  mem := p.mem
  v := p.v
  i := p.i
  pc := p.pc
  sp := p.sp
  stack := p.stack
  dt := p.dt
  st := p.st
  opcode := p.opcode
  disp := p.disp
  key := p.key
  dirty := true
  rng := s.rng
  fault := p.fault
  faultInfo := p.faultInfo

/-- A value a `Snapshot` can have made: its latch, stack pointer and memory are legal (log entry 14). -/
abbrev Snapshot.legal (p : Snapshot) : Prop :=
  p.mem.wf ∧ p.sp.toNat ≤ 16 ∧ legalLatch p.fault p.faultInfo

/-! ## The other events -/

/-- A timer counts down and stops at zero (60_exceptions.md R195). -/
def countDown (t : Byte) : Byte := if t.toNat > 0 then t - 1 else t

/-- `Tick`: both timers, whether or not a fault is latched (60_exceptions.md R195). -/
def tick (s : State) : State := { s with dt := countDown s.dt, st := countDown s.st }

/-- `Reset(seed)` (70_reset_and_hazards.md R210). The count of draws goes on, so that no draw after a reset is tied to one
before it (log entry 2). -/
def resetWith (seed : Nat) (s : State) : State :=
  { State.reset with rng := ⟨seed, s.rng.drawn⟩ }

/-- The state after `Load` of an image that fits: a full reset, then the image from 0x200 on
(70_reset_and_hazards.md R213). -/
def loadImage (seed : Nat) (image : List Byte) (s : State) : State :=
  (resetWith seed s).storeBytes Config.loadOrigin image

/-- `SetKeys(k)` (60_exceptions.md R197). -/
def setKeys (k : BitVec 16) (s : State) : State := { s with key := k }

/-- `ClearDirty` (60_exceptions.md R198). -/
def clearDirty (s : State) : State := { s with dirty := false }

/-- The eight events (00_scope.md R4). `load` carries the fresh seed of its reset (70_reset_and_hazards.md R213). -/
inductive Event
  | step
  | tick
  | reset (seed : Nat)
  | load (seed : Nat) (image : List Byte)
  | setKeys (k : BitVec 16)
  | clearDirty
  | snapshot
  | restore (p : Snapshot)
  deriving DecidableEq, Repr

/-- What an event answers the host. -/
inductive Reply
  /-- The event answers nothing. -/
  | done
  /-- `Load` took the image (70_reset_and_hazards.md R213). -/
  | loaded
  /-- `Load` refused the image with this code; nothing changed (70_reset_and_hazards.md R213, 60_exceptions.md R187). -/
  | loadRefused (code : BitVec 3)
  /-- The value `Snapshot` returns (60_exceptions.md R201). -/
  | taken (p : Snapshot)
  deriving DecidableEq, Repr

/-- A step, as an event: it answers nothing. -/
def stepEvent (s : State) : Host.Outcome (State × Reply) Fault Refusal :=
  match Sys2Proof.Machine.step s with
  | .next t => .next (t, .done)
  | .fault r => .fault r
  | .refused r => .refused r

/-- `Load`: an image longer than 3584 bytes is refused whole (70_reset_and_hazards.md R213). -/
def loadEvent (seed : Nat) (image : List Byte) (s : State) : State × Reply :=
  if image.length > Config.maxProgramBytes then (s, .loadRefused Condition.programTooLarge.code)
  else (loadImage seed image s, .loaded)

/-- `Restore(p)`: "any other value is outside this spec (refuse)" (60_exceptions.md R202). -/
def restoreEvent (p : Snapshot) (s : State) : Host.Outcome (State × Reply) Fault Refusal :=
  if p.legal then .next (restoreFrom p s, .done) else .refused .restoreOfNoSnapshot

/-- One event, atomic on the whole state (00_scope.md R4). -/
def event (e : Event) (s : State) : Host.Outcome (State × Reply) Fault Refusal :=
  match e with
  | .step => stepEvent s
  | .tick => .next (tick s, .done)
  | .reset seed => .next (resetWith seed s, .done)
  | .load seed image => .next (loadEvent seed image s)
  | .setKeys k => .next (setKeys k s, .done)
  | .clearDirty => .next (clearDirty s, .done)
  | .snapshot => .next (s, .taken (takeSnapshot s))
  | .restore p => restoreEvent p s

/-- A run: events one at a time in the order issued (20_memory.md R59, 00_scope.md R10). -/
def runEvents : List Event → State → Host.Outcome State Fault Refusal
  | [], s => .next s
  | e :: es, s =>
    match event e s with
    | .next (t, _) => runEvents es t
    | .fault r => .fault r
    | .refused r => .refused r

/-! ## The ports, read between events without side effect -/

/-- A display cell as the host sees it, 0xFFFFFFFF or 0x00000000, by flat index y*64 + x (60_exceptions.md R198,
10_state.md R32). -/
def displayPort (s : State) (index : Nat) : BitVec 32 :=
  if s.disp.get (index % Config.displayWidth) (index / Config.displayWidth) then 0xFFFFFFFF else 0

/-- The bit DIRTY of the display port (60_exceptions.md R198). -/
def dirtyPort (s : State) : Bool := s.dirty

/-- The sound timer, on the audio port (60_exceptions.md R199). -/
def audioPort (s : State) : Byte := s.st

/-- `tone = (ST != 0)` (60_exceptions.md R199). -/
def tone (s : State) : Bool := decide (audioPort s ≠ 0)

/-- What the debug port shows (60_exceptions.md R203). -/
structure DebugView where
  pc        : Word
  i         : Word
  opcode    : Word
  v         : Vector Byte 16
  stack     : Vector Word 16
  sp        : Word
  dt        : Byte
  st        : Byte
  fault     : BitVec 3
  faultInfo : Word
  deriving DecidableEq, Repr

/-- The debug port (60_exceptions.md R203). -/
def debugPort (s : State) : DebugView where
  pc := s.pc
  i := s.i
  opcode := s.opcode
  v := s.v
  stack := s.stack
  sp := s.sp
  dt := s.dt
  st := s.st
  fault := s.fault
  faultInfo := s.faultInfo

end Sys2Proof.Machine
end

