-- ==== Sys2Proof/Safety.lean ====
section
/-! DEFINITION. What claims call a safe state and a safe run (60_exceptions.md R183: "a model should treat any state with
FAULT != 0 as gone wrong"). -/

namespace Sys2Proof.Machine

/-- A fault is latched: the instruction agent makes no more steps (60_exceptions.md R183). -/
abbrev State.halted (s : State) : Prop := s.fault ≠ 0

/-- A safe state: legal and not gone wrong. -/
abbrev State.safe (s : State) : Prop := s.legal ∧ ¬ s.halted

/-- A run answers a legal state: it is not stopped by a fault of the model, and keeps the invariant. -/
abbrev endsLegal (es : List Event) (s : State) : Prop :=
  ∀ t, runEvents es s = .next t → t.legal

end Sys2Proof.Machine
end

