-- ==== Sys2Proof/Certificates/Slice0/Obligations.lean ====
section
/-! DEFINITION. The statements for the provers. Each docstring names the rules of spec/ it formalises. The first section
is their vocabulary: what stays the same, and how a word is written. -/

namespace Sys2Proof.Machine

/-! ## Vocabulary -/

/-- The word `w`, written as a number from the spec's encoding, is the instruction `i`. -/
def encodes (w : Nat) (i : Instr) : Prop := decodeWord (BitVec.ofNat 16 w) = i

/-- PC becomes `npc`, two past the instruction. -/
def pcAdvanced (s t : State) : Prop := t.pc.toNat = (s.pc.toNat + 2) % 65536

/-- PC becomes `npc + 2` when `c` holds and `npc` when it does not. -/
def pcSkips (c : Prop) (s t : State) : Prop :=
  (c → t.pc.toNat = (s.pc.toNat + 4) % 65536) ∧ (¬ c → pcAdvanced s t)

/-- Every byte of memory reads as before. -/
def sameMemory (s t : State) : Prop := ∀ a, t.mem.read a = s.mem.read a

/-- Every byte of memory outside `base, …, base + len - 1` reads as before. -/
def sameMemoryOutside (base len : Nat) (s t : State) : Prop :=
  ∀ a, ¬ (base ≤ a ∧ a < base + len) → t.mem.read a = s.mem.read a

/-- Every general register but those listed is as before. -/
def sameRegistersBut (rs : List Reg) (s t : State) : Prop := ∀ r, r ∉ rs → t.getV r = s.getV r

/-- The call stack is as before. -/
def sameStack (s t : State) : Prop := t.sp = s.sp ∧ t.stack = s.stack

/-- Both timers are as before. -/
def sameTimers (s t : State) : Prop := t.dt = s.dt ∧ t.st = s.st

/-- The display and its dirty flag are as before. -/
def sameDisplay (s t : State) : Prop := t.disp = s.disp ∧ t.dirty = s.dirty

/-- OPCODE, KEY and the fault latch are as before: no instruction that completes writes any of them. -/
def sameControl (s t : State) : Prop :=
  t.opcode = s.opcode ∧ t.key = s.key ∧ t.fault = s.fault ∧ t.faultInfo = s.faultInfo

/-- Everything but V, PC and I is as before. -/
def sameButVPcI (s t : State) : Prop :=
  sameMemory s t ∧ sameStack s t ∧ sameTimers s t ∧ sameDisplay s t ∧ sameControl s t ∧ t.rng = s.rng

/-- Everything but V and PC is as before. -/
def sameButVPc (s t : State) : Prop := sameButVPcI s t ∧ t.i = s.i

/-- Everything but PC is as before. -/
def sameButPc (s t : State) : Prop := sameButVPc s t ∧ sameRegistersBut [] s t

/-- The value of a flag: 1 when `c` holds, 0 when it does not. -/
def flagIs (c : Prop) (b : Byte) : Prop := (c → b.toNat = 1) ∧ (¬ c → b.toNat = 0)

/-- The state after `raise` with this code and detail: nothing else changes (60_exceptions.md R182). -/
def latched (code : BitVec 3) (info : Nat) (s : State) : State :=
  { s with fault := code, faultInfo := BitVec.ofNat 16 info }

/-- The sprite bit that an 8-column sprite with the given rows, drawn at (x0, y0) and clipped to the grid, has over
cell (x, y); bit 7 of a row is its leftmost column (43_display.md R141, R142). -/
def spriteCovers (rows : Nat → Byte) (n x0 y0 x y : Nat) : Prop :=
  x0 ≤ x ∧ x < x0 + 8 ∧ y0 ≤ y ∧ y < y0 + n ∧ (rows (y - y0)).getLsbD (7 - (x - x0)) = true

/-- Memory over the 12-bit address space as a reset leaves it (10_state.md R38). -/
def resetByte (a : Nat) : Byte :=
  if 0x050 ≤ a ∧ a ≤ 0x09F then Config.glyphRom.getD (a - 0x050) 0 else 0

/-- An event that replaces the fault latch and the whole state: Reset, Restore, and Load of an image that fits
(70_reset_and_hazards.md R213: a longer one is refused and nothing changes). -/
def Event.replacesState : Event → Bool
  | .reset _ | .restore _ => true
  | .load _ image => decide (image.length ≤ 3584)
  | .step | .tick | .setKeys _ | .clearDirty | .snapshot => false

end Sys2Proof.Machine

open Sys2Proof Sys2Proof.Machine

/-! ## Encoding -/

/-- Sanity: at least one word of each of the sixteen families (high nibbles, 00_scope.md R11), written out from the opcode
map of 30_encoding.md R80, decodes to its instruction. -/
def Obligations.WordsOfEveryFamilyDecode : Prop :=
  encodes 0x00E0 .cls ∧ encodes 0x00EE .ret ∧ encodes 0x1ABC (.jp 0xABC) ∧ encodes 0x235A (.call 0x35A) ∧
  encodes 0x332A (.seImm 3 0x2A) ∧ encodes 0x4B24 (.sneImm 11 0x24) ∧ encodes 0x5120 (.seReg 1 2) ∧
  encodes 0x6CCD (.ldImm 12 0xCD) ∧ encodes 0x7F01 (.addImm 15 0x01) ∧ encodes 0x8127 (.subnReg 1 2) ∧
  encodes 0x8008 .nop ∧ encodes 0x9210 (.sneReg 2 1) ∧ encodes 0xA2F0 (.ldI 0x2F0) ∧ encodes 0xB300 (.jpV0 0x300) ∧
  encodes 0xC30F (.rnd 3 0x0F) ∧ encodes 0xD125 (.drw 1 2 5) ∧ encodes 0xE29E (.skp 2) ∧ encodes 0xF265 (.ldVxMem 2)

/-- Headline: no bit of an operand is lost by encoding and decoding, for every instruction and every operand its word
can carry (30_encoding.md R71, R72, R73, R80, R81). -/
def Obligations.DecodeInvertsEncode : Prop :=
  ∀ i : Instr, i.wellFormed = true → decodeWord (encode i) = i

/-- Whatever the word, the instruction the decoder gives has every operand in the range of its field
(30_encoding.md R72, R81). -/
def Obligations.DecodedInstructionIsWellFormed : Prop :=
  ∀ w : Word, (decodeWord w).wellFormed = true

/-- 30_encoding.md R80: a word is the instruction of a row when `(w & mask) = match`, its operands being the bits of the
row's pattern (R71). -/
def Obligations.DecoderFollowsOpcodeMap : Prop :=
  ∀ w : Word,
    let x : Reg := Fin.ofNat 16 ((w >>> 8) &&& 0xF#16).toNat
    let y : Reg := Fin.ofNat 16 ((w >>> 4) &&& 0xF#16).toNat
    let n : Nat := (w &&& 0xF#16).toNat
    let kk : Byte := BitVec.ofNat 8 (w &&& 0xFF#16).toNat
    let nnn : Word := w &&& 0xFFF#16
    (w &&& 0xF00F = 0x0000 → decodeWord w = .cls) ∧ (w &&& 0xF00F = 0x000E → decodeWord w = .ret) ∧
    (w &&& 0xF000 = 0x1000 → decodeWord w = .jp nnn) ∧ (w &&& 0xF000 = 0x2000 → decodeWord w = .call nnn) ∧
    (w &&& 0xF000 = 0x3000 → decodeWord w = .seImm x kk) ∧ (w &&& 0xF000 = 0x4000 → decodeWord w = .sneImm x kk) ∧
    (w &&& 0xF000 = 0x5000 → decodeWord w = .seReg x y) ∧ (w &&& 0xF000 = 0x6000 → decodeWord w = .ldImm x kk) ∧
    (w &&& 0xF000 = 0x7000 → decodeWord w = .addImm x kk) ∧ (w &&& 0xF00F = 0x8000 → decodeWord w = .ldReg x y) ∧
    (w &&& 0xF00F = 0x8001 → decodeWord w = .orReg x y) ∧ (w &&& 0xF00F = 0x8002 → decodeWord w = .andReg x y) ∧
    (w &&& 0xF00F = 0x8003 → decodeWord w = .xorReg x y) ∧ (w &&& 0xF00F = 0x8004 → decodeWord w = .addReg x y) ∧
    (w &&& 0xF00F = 0x8005 → decodeWord w = .subReg x y) ∧ (w &&& 0xF00F = 0x8006 → decodeWord w = .shr x y) ∧
    (w &&& 0xF00F = 0x8007 → decodeWord w = .subnReg x y) ∧ (w &&& 0xF00F = 0x800E → decodeWord w = .shl x y) ∧
    (w &&& 0xF000 = 0x9000 → decodeWord w = .sneReg x y) ∧ (w &&& 0xF000 = 0xA000 → decodeWord w = .ldI nnn) ∧
    (w &&& 0xF000 = 0xB000 → decodeWord w = .jpV0 nnn) ∧ (w &&& 0xF000 = 0xC000 → decodeWord w = .rnd x kk) ∧
    (w &&& 0xF000 = 0xD000 → decodeWord w = .drw x y n) ∧ (w &&& 0xF00F = 0xE00E → decodeWord w = .skp x) ∧
    (w &&& 0xF00F = 0xE001 → decodeWord w = .sknp x) ∧ (w &&& 0xF0FF = 0xF007 → decodeWord w = .ldVxDT x) ∧
    (w &&& 0xF0FF = 0xF00A → decodeWord w = .ldVxK x) ∧ (w &&& 0xF0FF = 0xF015 → decodeWord w = .ldDTVx x) ∧
    (w &&& 0xF0FF = 0xF018 → decodeWord w = .ldSTVx x) ∧ (w &&& 0xF0FF = 0xF01E → decodeWord w = .addIVx x) ∧
    (w &&& 0xF0FF = 0xF029 → decodeWord w = .ldFVx x) ∧ (w &&& 0xF0FF = 0xF033 → decodeWord w = .ldBVx x) ∧
    (w &&& 0xF0FF = 0xF055 → decodeWord w = .ldMemVx x) ∧ (w &&& 0xF0FF = 0xF065 → decodeWord w = .ldVxMem x)

/-- 30_encoding.md R79: a word with any value in ignored bits is the instruction of the canonical word 00E0, 00EE, 5xy0,
9xy0, Ex9E or ExA1. The spec marks the rule as its own inference from R74 to R78. -/
def Obligations.IgnoredBitsAreIgnored : Prop :=
  (∀ z < 256, encodes (z * 16) (decodeWord 0x00E0) ∧ encodes (z * 16 + 0xE) (decodeWord 0x00EE)) ∧
  ∀ x < 16, ∀ y < 16, ∀ z < 16,
    encodes (0x5000 + x * 256 + y * 16 + z) (decodeWord (BitVec.ofNat 16 (0x5000 + x * 256 + y * 16))) ∧
    encodes (0x9000 + x * 256 + y * 16 + z) (decodeWord (BitVec.ofNat 16 (0x9000 + x * 256 + y * 16))) ∧
    encodes (0xE000 + x * 256 + z * 16 + 0xE) (decodeWord (BitVec.ofNat 16 (0xE09E + x * 256))) ∧
    encodes (0xE000 + x * 256 + z * 16 + 0x1) (decodeWord (BitVec.ofNat 16 (0xE0A1 + x * 256)))

/-- 40_control_flow.md R100, with the words of 30_encoding.md R82: NOP is exactly the unrecognised words, and it changes
nothing but PC. -/
def Obligations.UnrecognisedWordsOnlyAdvance : Prop :=
  (∀ w : Word, decodeWord w = .nop ↔
    (bits w 15 12 = 0x0 ∧ bits w 3 0 ≠ 0x0 ∧ bits w 3 0 ≠ 0xE) ∨
    (bits w 15 12 = 0x8 ∧ 0x8 ≤ bits w 3 0 ∧ bits w 3 0 ≠ 0xE) ∨
    (bits w 15 12 = 0xE ∧ bits w 3 0 ≠ 0x1 ∧ bits w 3 0 ≠ 0xE) ∨
    (bits w 15 12 = 0xF ∧ bits w 7 0 ∉ [0x07, 0x0A, 0x15, 0x18, 0x1E, 0x29, 0x33, 0x55, 0x65])) ∧
  ∀ s : State, ∃ t, exec .nop s = .next t ∧ pcAdvanced s t ∧ sameButPc s t

/-! ## The step -/

/-- 40_control_flow.md R90: a halted step changes nothing; a fetch past 0xFFE raises AddressOutOfRange with
`max(PC, 0x1000)` and leaves OPCODE; otherwise the big-endian word at PC is latched in OPCODE and the step is `exec` of
the instruction it decodes to. -/
def Obligations.StepRunsTheDecodedInstruction : Prop :=
  ∀ s : State,
    (s.fault ≠ 0 → step s = .next s) ∧
    (s.fault = 0 → s.pc.toNat > 0xFFE → step s = .next (latched 2 (max s.pc.toNat 0x1000) s)) ∧
    (s.fault = 0 → s.pc.toNat ≤ 0xFFE →
      ∀ w : Word, w.toNat = (s.mem.read s.pc.toNat).toNat * 256 + (s.mem.read (s.pc.toNat + 1)).toNat →
        step s = exec (decodeWord w) { s with opcode := w })

/-- 60_exceptions.md R185: the state at a fault is the state before the faulting step, plus OPCODE, FAULT and
FAULT_INFO; OPCODE is new exactly when the fetch completed. The spec marks the rule as its own inference
from R182. -/
def Obligations.FaultsArePrecise : Prop :=
  ∀ s t : State, s.fault = 0 → step s = .next t → t.fault ≠ 0 →
    t = { s with opcode := t.opcode, fault := t.fault, faultInfo := t.faultInfo } ∧
    (s.pc.toNat > 0xFFE → t.opcode = s.opcode) ∧
    (s.pc.toNat ≤ 0xFFE →
      t.opcode.toNat = (s.mem.read s.pc.toNat).toNat * 256 + (s.mem.read (s.pc.toNat + 1)).toNat)

/-- 60_exceptions.md R181, with the codes and details of R180: which instruction can raise what, and when; every other
instruction raises nothing. The spec marks R181 as its own inference from the instruction rules. -/
def Obligations.OnlyTheTabledInstructionsFault : Prop :=
  ∀ (i : Instr) (s t : State), s.fault = 0 → exec i s = .next t → t.fault ≠ 0 →
    match i with
    | .ret => s.sp.toNat = 0 ∧ t = latched 4 0 s
    | .call _ => 16 ≤ s.sp.toNat ∧ t = latched 3 s.sp.toNat s
    | .drw _ _ n => 1 ≤ n ∧ 0xFFF < s.i.toNat + n - 1 ∧ t = latched 2 (max s.i.toNat 0x1000) s
    | .ldBVx _ => 0xFFF < s.i.toNat + 2 ∧ t = latched 2 (max s.i.toNat 0x1000) s
    | .ldMemVx x => 0xFFF < s.i.toNat + x.val ∧ t = latched 2 (max s.i.toNat 0x1000) s
    | .ldVxMem x => 0xFFF < s.i.toNat + x.val ∧ t = latched 2 (max s.i.toNat 0x1000) s
    | .skp x => 15 < (s.getV x).toNat ∧ t = latched 5 (s.getV x).toNat s
    | .sknp x => 15 < (s.getV x).toNat ∧ t = latched 5 (s.getV x).toNat s
    | _ => False

/-- A step never blocks and is never refused: whenever SP is one of its values 0 to 16, it answers a next state
(40_control_flow.md R90, 10_state.md R28). -/
def Obligations.EveryStepAnswersANextState : Prop :=
  ∀ s : State, s.sp.toNat ≤ 16 → ∃ t, step s = .next t

/-- Headline: from any legal state, a step gives a legal state: memory canonical and inside the address space, SP 0 to
16, the latch as 60_exceptions.md R180 says (10_state.md R41). The canonical form is the model's own (log entry 5). -/
def Obligations.StepKeepsLegalStates : Prop :=
  ∀ s t : State, s.legal → step s = .next t → t.legal

/-- The state after reset is legal, whatever the seed (10_state.md R38, R41). -/
def Obligations.ResetStateIsLegal : Prop :=
  State.reset.legal ∧ ∀ seed s, (resetWith seed s).legal

/-- Headline: from any legal state, every one of the eight events answers a legal state; none ends in a fault of the
model, and only a `Restore`, of a value no `Snapshot` made, is refused (10_state.md R41, which the spec marks as its own
inference; the canonical form of memory, log entry 5, and which values are refused, log entry 14, are the model's). -/
def Obligations.EveryEventKeepsLegalStates : Prop :=
  ∀ (e : Event) (s : State), s.legal →
    match event e s with
    | .next (t, _) => t.legal
    | .fault _ => False
    | .refused r => r = .restoreOfNoSnapshot ∧ ∃ p, e = .restore p

/-- 10_state.md R41: every state that a run of events reaches from Reset is legal, and no run is stopped except
by a `Restore` of a value no `Snapshot` made. The spec marks the rule as its own inference; the canonical form of
memory (log entry 5) and which values are refused (log entry 14) are the model's. -/
def Obligations.ReachableStatesAreLegal : Prop :=
  ∀ (seed : Nat) (s : State) (es : List Event),
    match runEvents es (resetWith seed s) with
    | .next t => t.legal
    | .fault _ => False
    | .refused r => r = .restoreOfNoSnapshot

/-- 60_exceptions.md R183: on a halted core a step changes nothing at all, and a run with no Reset, no Restore and no Load
of an image that fits leaves the latch and all that only instructions write as they were: only Tick, SetKeys and
ClearDirty still act, on DT, ST, KEY and DIRTY. -/
def Obligations.HaltedCoreStaysAsItIs : Prop :=
  ∀ s : State, s.fault ≠ 0 →
    event .step s = .next (s, .done) ∧
    ∀ (es : List Event) (t : State), (∀ e ∈ es, e.replacesState = false) → runEvents es s = .next t →
      t.fault = s.fault ∧ t.faultInfo = s.faultInfo ∧ t.mem = s.mem ∧ t.v = s.v ∧ t.i = s.i ∧ t.pc = s.pc ∧
      t.sp = s.sp ∧ t.stack = s.stack ∧ t.opcode = s.opcode ∧ t.disp = s.disp ∧ t.rng = s.rng

/-! ## Rules over all instructions -/

/-- 40_control_flow.md R91: the new PC of an instruction that raises nothing. The spec marks the rule as its own
inference from the instruction rules. -/
def Obligations.ProgramCounterLaw : Prop :=
  ∀ (i : Instr) (s t : State), s.fault = 0 → exec i s = .next t → t.fault = 0 →
    match i with
    | .jp nnn => t.pc = nnn
    | .call nnn => t.pc = nnn
    | .jpV0 nnn => t.pc.toNat = ((s.getV 0).toNat + nnn.toNat) % 65536
    | .ret => s.stack[s.sp.toNat - 1]? = some t.pc
    | .seImm x kk => pcSkips (s.getV x = kk) s t
    | .sneImm x kk => pcSkips (s.getV x ≠ kk) s t
    | .seReg x y => pcSkips (s.getV x = s.getV y) s t
    | .sneReg x y => pcSkips (s.getV x ≠ s.getV y) s t
    | .skp x => pcSkips (s.key.getLsbD (s.getV x).toNat = true) s t
    | .sknp x => pcSkips (s.key.getLsbD (s.getV x).toNat = false) s t
    | .ldVxK _ => (s.key ≠ 0 → pcAdvanced s t) ∧ (s.key = 0 → t.pc = s.pc)
    | _ => pcAdvanced s t

/-- The frame of every special register (10_state.md R37) but PC, whose law is `ProgramCounterLaw`, and of the stack, the
display, the keys and the random source (R29, R32, R33, R35): each changes only by the instructions named for it; FAULT
and FAULT_INFO only by those that can raise (60_exceptions.md R181). -/
def Obligations.OnlyNamedInstructionsWriteSpecialState : Prop :=
  ∀ (i : Instr) (s t : State), exec i s = .next t →
    (t.i = s.i ∨ (∃ nnn, i = .ldI nnn) ∨ (∃ x, i = .addIVx x) ∨ (∃ x, i = .ldFVx x)) ∧
    (sameStack s t ∨ i = .ret ∨ (∃ nnn, i = .call nnn)) ∧
    (t.dt = s.dt ∨ ∃ x, i = .ldDTVx x) ∧
    (t.st = s.st ∨ ∃ x, i = .ldSTVx x) ∧
    (sameDisplay s t ∨ i = .cls ∨ (∃ x y n, i = .drw x y n)) ∧
    (t.rng = s.rng ∨ ∃ x kk, i = .rnd x kk) ∧
    ((t.fault = s.fault ∧ t.faultInfo = s.faultInfo) ∨ i = .ret ∨ (∃ nnn, i = .call nnn) ∨ (∃ x y n, i = .drw x y n) ∨
      (∃ x, i = .ldBVx x) ∨ (∃ x, i = .ldMemVx x) ∨ (∃ x, i = .ldVxMem x) ∨ (∃ x, i = .skp x) ∨ (∃ x, i = .sknp x)) ∧
    t.opcode = s.opcode ∧ t.key = s.key

/-- The frame of the general registers: each instruction leaves every register but its destination, and VF where the
instruction writes it as a flag, as it was (10_state.md R24, R25). -/
def Obligations.OnlyDestinationRegistersChange : Prop :=
  ∀ (i : Instr) (s t : State), exec i s = .next t →
    match i with
    | .ldImm x _ => sameRegistersBut [x] s t
    | .addImm x _ => sameRegistersBut [x] s t
    | .rnd x _ => sameRegistersBut [x] s t
    | .ldReg x _ => sameRegistersBut [x] s t
    | .orReg x _ => sameRegistersBut [x] s t
    | .andReg x _ => sameRegistersBut [x] s t
    | .xorReg x _ => sameRegistersBut [x] s t
    | .ldVxDT x => sameRegistersBut [x] s t
    | .ldVxK x => sameRegistersBut [x] s t
    | .addReg x _ => sameRegistersBut [x, 15] s t
    | .subReg x _ => sameRegistersBut [x, 15] s t
    | .subnReg x _ => sameRegistersBut [x, 15] s t
    | .shr x _ => sameRegistersBut [x, 15] s t
    | .shl x _ => sameRegistersBut [x, 15] s t
    | .drw _ _ _ => sameRegistersBut [15] s t
    | .addIVx _ => sameRegistersBut [15] s t
    | .ldVxMem x => ∀ r : Reg, x < r → t.getV r = s.getV r
    | _ => sameRegistersBut [] s t

/-- The frame of memory: Store-BCD writes the three bytes at I, Block-store the x + 1 bytes at I, and no other
instruction writes any byte (20_memory.md R57). -/
def Obligations.OnlyStoresChangeMemory : Prop :=
  ∀ (i : Instr) (s t : State), exec i s = .next t →
    match i with
    | .ldBVx _ => sameMemoryOutside (indexBase s) 3 s t
    | .ldMemVx x => sameMemoryOutside (indexBase s) (x.val + 1) s t
    | _ => sameMemory s t

/-- Canonical memories that read alike at every address are the same data, so equality of states is equality of contents
(10_state.md R21; the canonical form is the model's own). -/
def Obligations.CanonicalMemoryIsDeterminedByItsBytes : Prop :=
  ∀ m m' : Memory, m.wf → m'.wf → (∀ a < 4096, m.read a = m'.read a) → m = m'

/-! ## Control flow -/

/-- 40_control_flow.md R93 and R99. -/
def Obligations.JumpsGoToTheirTarget : Prop :=
  ∀ (nnn : Word) (s : State),
    (nnn.toNat ≤ 0xFFF → encodes (0x1000 + nnn.toNat) (.jp nnn) ∧ encodes (0xB000 + nnn.toNat) (.jpV0 nnn)) ∧
    (∃ t, exec (.jp nnn) s = .next t ∧ t.pc = nnn ∧ sameButPc s t) ∧
    (∃ t, exec (.jpV0 nnn) s = .next t ∧ t.pc.toNat = ((s.getV 0).toNat + nnn.toNat) % 65536 ∧ sameButPc s t)

/-- 40_control_flow.md R94: below depth 16 the return address goes to the slot at SP; at 16 the call overflows. -/
def Obligations.CallPushesReturnAddress : Prop :=
  ∀ (nnn : Word) (s : State),
    (nnn.toNat ≤ 0xFFF → encodes (0x2000 + nnn.toNat) (.call nnn)) ∧
    (s.sp.toNat < 16 → ∃ t, exec (.call nnn) s = .next t ∧ t.pc = nnn ∧ t.sp.toNat = s.sp.toNat + 1 ∧
      (∀ a : Word, a.toNat = (s.pc.toNat + 2) % 65536 → t.stack[s.sp.toNat]? = some a) ∧
      (∀ k : Nat, k ≠ s.sp.toNat → t.stack[k]? = s.stack[k]?) ∧
      sameRegistersBut [] s t ∧ t.i = s.i ∧ sameMemory s t ∧ sameTimers s t ∧ sameDisplay s t ∧ sameControl s t ∧
      t.rng = s.rng) ∧
    (16 ≤ s.sp.toNat → exec (.call nnn) s = .next (latched 3 s.sp.toNat s))

/-- 40_control_flow.md R92: SP goes down by one, PC takes the slot there, no slot changes; with SP = 0 the return
underflows. -/
def Obligations.ReturnPopsTheSlotBelow : Prop :=
  (∀ z < 256, encodes (z * 16 + 0xE) .ret) ∧
  ∀ s : State,
    (s.sp.toNat ≠ 0 → s.sp.toNat ≤ 16 → ∃ t, exec .ret s = .next t ∧ t.sp.toNat = s.sp.toNat - 1 ∧
      s.stack[t.sp.toNat]? = some t.pc ∧ t.stack = s.stack ∧
      sameRegistersBut [] s t ∧ t.i = s.i ∧ sameMemory s t ∧ sameTimers s t ∧ sameDisplay s t ∧ sameControl s t ∧
      t.rng = s.rng) ∧
    (s.sp.toNat = 0 → exec .ret s = .next (latched 4 0 s))

/-- The model's choice (log entry 10), not a rule: with SP above 16, which no run reaches (10_state.md R28, R41), there is
no slot to pop and the return stops by name. -/
def Obligations.ReturnStopsWhereThereIsNoSlot : Prop :=
  ∀ s : State, s.sp.toNat > 16 → exec .ret s = .fault .noSuchStackSlot

/-- A return directly after a call resumes at the instruction after the call, at the same depth, with every slot but the
one used as before (40_control_flow.md R92, R94; 10_state.md R29). -/
def Obligations.ReturnUndoesCall : Prop :=
  ∀ (nnn : Word) (s t : State), s.sp.toNat < 16 → exec (.call nnn) s = .next t →
    ∃ u, exec .ret t = .next u ∧ pcAdvanced s u ∧ u.sp = s.sp ∧ u.v = s.v ∧ u.i = s.i ∧ u.mem = s.mem ∧
      ∀ k : Nat, k ≠ s.sp.toNat → u.stack[k]? = s.stack[k]?

/-- 40_control_flow.md R95 to R98. -/
def Obligations.SkipsCompareRegisters : Prop :=
  ∀ (x y : Reg) (kk : Byte) (s : State),
    encodes (0x3000 + x.val * 256 + kk.toNat) (.seImm x kk) ∧
    encodes (0x4000 + x.val * 256 + kk.toNat) (.sneImm x kk) ∧
    (∀ z < 16, encodes (0x5000 + x.val * 256 + y.val * 16 + z) (.seReg x y) ∧
      encodes (0x9000 + x.val * 256 + y.val * 16 + z) (.sneReg x y)) ∧
    (∃ t, exec (.seImm x kk) s = .next t ∧ pcSkips (s.getV x = kk) s t ∧ sameButPc s t) ∧
    (∃ t, exec (.sneImm x kk) s = .next t ∧ pcSkips (s.getV x ≠ kk) s t ∧ sameButPc s t) ∧
    (∃ t, exec (.seReg x y) s = .next t ∧ pcSkips (s.getV x = s.getV y) s t ∧ sameButPc s t) ∧
    (∃ t, exec (.sneReg x y) s = .next t ∧ pcSkips (s.getV x ≠ s.getV y) s t ∧ sameButPc s t)

/-! ## Immediate and random -/

/-- 41_immediate_and_random.md R110, R111, R112: the loads and the wrapping add, with no flag. -/
def Obligations.ImmediatesReachTheirRegister : Prop :=
  ∀ (x : Reg) (kk : Byte) (nnn : Word) (s : State),
    encodes (0x6000 + x.val * 256 + kk.toNat) (.ldImm x kk) ∧
    encodes (0x7000 + x.val * 256 + kk.toNat) (.addImm x kk) ∧
    (nnn.toNat ≤ 0xFFF → encodes (0xA000 + nnn.toNat) (.ldI nnn)) ∧
    (∃ t, exec (.ldImm x kk) s = .next t ∧ t.getV x = kk ∧ sameRegistersBut [x] s t ∧ pcAdvanced s t ∧
      sameButVPc s t) ∧
    (∃ t, exec (.addImm x kk) s = .next t ∧ (t.getV x).toNat = ((s.getV x).toNat + kk.toNat) % 256 ∧
      sameRegistersBut [x] s t ∧ pcAdvanced s t ∧ sameButVPc s t) ∧
    (∃ t, exec (.ldI nnn) s = .next t ∧ t.i = nnn ∧ sameRegistersBut [] s t ∧ pcAdvanced s t ∧ sameButVPcI s t)

/-- 41_immediate_and_random.md R113: V[x] becomes the byte of the draw this execution makes, ANDed with the immediate, so
every bit that is 0 in kk is 0, and exactly one draw is used up. The byte, `drawnByte`, is a free value, and that it is a
function of a seed and a count of draws is the model's own choice (log entry 2): the statement holds for every such
byte. -/
def Obligations.RandomByteIsMasked : Prop :=
  ∀ (x : Reg) (kk : Byte) (s : State),
    encodes (0xC000 + x.val * 256 + kk.toNat) (.rnd x kk) ∧
    ∃ t, exec (.rnd x kk) s = .next t ∧ t.getV x = drawnByte s &&& kk ∧
      (∀ j, kk.getLsbD j = false → (t.getV x).getLsbD j = false) ∧
      t.rng.drawn = s.rng.drawn + 1 ∧ t.rng.seed = s.rng.seed ∧ sameRegistersBut [x] s t ∧ pcAdvanced s t ∧
      t.i = s.i ∧ sameMemory s t ∧ sameStack s t ∧ sameTimers s t ∧ sameDisplay s t ∧ sameControl s t

/-! ## The ALU family -/

/-- 42_alu.md R121 to R124: assign, OR, AND, XOR, bit by bit; VF is not touched unless it is the destination. -/
def Obligations.LogicOperationsLeaveTheFlag : Prop :=
  ∀ (x y : Reg) (s : State),
    encodes (0x8000 + x.val * 256 + y.val * 16) (.ldReg x y) ∧
    encodes (0x8001 + x.val * 256 + y.val * 16) (.orReg x y) ∧
    encodes (0x8002 + x.val * 256 + y.val * 16) (.andReg x y) ∧
    encodes (0x8003 + x.val * 256 + y.val * 16) (.xorReg x y) ∧
    (∃ t, exec (.ldReg x y) s = .next t ∧ t.getV x = s.getV y ∧ sameRegistersBut [x] s t ∧ pcAdvanced s t ∧
      sameButVPc s t) ∧
    (∃ t, exec (.orReg x y) s = .next t ∧
      (∀ j, (t.getV x).getLsbD j = ((s.getV x).getLsbD j || (s.getV y).getLsbD j)) ∧ sameRegistersBut [x] s t ∧
      pcAdvanced s t ∧ sameButVPc s t) ∧
    (∃ t, exec (.andReg x y) s = .next t ∧
      (∀ j, (t.getV x).getLsbD j = ((s.getV x).getLsbD j && (s.getV y).getLsbD j)) ∧ sameRegistersBut [x] s t ∧
      pcAdvanced s t ∧ sameButVPc s t) ∧
    (∃ t, exec (.xorReg x y) s = .next t ∧
      (∀ j, (t.getV x).getLsbD j = ((s.getV x).getLsbD j ^^ (s.getV y).getLsbD j)) ∧ sameRegistersBut [x] s t ∧
      pcAdvanced s t ∧ sameButVPc s t)

/-- 42_alu.md R125, R126, R128: the wrapped result in V[x] unless x is 15, the flag in VF always; equal operands of SUB
and SUBN give flag 0. -/
def Obligations.SumsAndDifferencesSetTheFlag : Prop :=
  ∀ (x y : Reg) (s : State),
    encodes (0x8004 + x.val * 256 + y.val * 16) (.addReg x y) ∧
    encodes (0x8005 + x.val * 256 + y.val * 16) (.subReg x y) ∧
    encodes (0x8007 + x.val * 256 + y.val * 16) (.subnReg x y) ∧
    (∃ t, exec (.addReg x y) s = .next t ∧
      (x ≠ 15 → (t.getV x).toNat = ((s.getV x).toNat + (s.getV y).toNat) % 256) ∧
      flagIs ((s.getV x).toNat + (s.getV y).toNat > 255) (t.getV 15) ∧
      sameRegistersBut [x, 15] s t ∧ pcAdvanced s t ∧ sameButVPc s t) ∧
    (∃ t, exec (.subReg x y) s = .next t ∧
      (x ≠ 15 → (t.getV x).toNat = (256 + (s.getV x).toNat - (s.getV y).toNat) % 256) ∧
      flagIs ((s.getV x).toNat > (s.getV y).toNat) (t.getV 15) ∧
      sameRegistersBut [x, 15] s t ∧ pcAdvanced s t ∧ sameButVPc s t) ∧
    (∃ t, exec (.subnReg x y) s = .next t ∧
      (x ≠ 15 → (t.getV x).toNat = (256 + (s.getV y).toNat - (s.getV x).toNat) % 256) ∧
      flagIs ((s.getV y).toNat > (s.getV x).toNat) (t.getV 15) ∧
      sameRegistersBut [x, 15] s t ∧ pcAdvanced s t ∧ sameButVPc s t)

/-- 42_alu.md R127 and R129: V[x] is shifted in place by one bit, whatever y; VF takes the bit shifted out, last. -/
def Obligations.ShiftsMoveOneBitIntoTheFlag : Prop :=
  ∀ (x y : Reg) (s : State),
    encodes (0x8006 + x.val * 256 + y.val * 16) (.shr x y) ∧
    encodes (0x800E + x.val * 256 + y.val * 16) (.shl x y) ∧
    (∃ t, exec (.shr x y) s = .next t ∧
      (x ≠ 15 → (t.getV x).toNat = (s.getV x).toNat / 2) ∧
      flagIs ((s.getV x).toNat % 2 = 1) (t.getV 15) ∧
      sameRegistersBut [x, 15] s t ∧ pcAdvanced s t ∧ sameButVPc s t) ∧
    (∃ t, exec (.shl x y) s = .next t ∧
      (x ≠ 15 → (t.getV x).toNat = (s.getV x).toNat * 2 % 256) ∧
      flagIs ((s.getV x).toNat ≥ 128) (t.getV 15) ∧
      sameRegistersBut [x, 15] s t ∧ pcAdvanced s t ∧ sameButVPc s t)

/-! ## The display -/

/-- 43_display.md R140. -/
def Obligations.ClearTurnsEveryCellOff : Prop :=
  (∀ z < 256, encodes (z * 16) .cls) ∧
  ∀ s : State, ∃ t, exec .cls s = .next t ∧ (∀ x y, t.disp.get x y = false) ∧ t.dirty = true ∧ pcAdvanced s t ∧
    sameRegistersBut [] s t ∧ t.i = s.i ∧ sameMemory s t ∧ sameStack s t ∧ sameTimers s t ∧ sameControl s t ∧
    t.rng = s.rng

/-- 43_display.md R141 with the edge policy of R142: an out-of-range sprite raises AddressOutOfRange before any change;
otherwise each cell under a set sprite bit inside the grid is toggled, every other cell stays, VF is 1 exactly when a cell
went from on to off, and DIRTY is set. -/
def Obligations.DrawTogglesTheCellsUnderTheSprite : Prop :=
  ∀ (x y : Reg) (n : Nat) (s : State),
    (n ≤ 15 → encodes (0xD000 + x.val * 256 + y.val * 16 + n) (.drw x y n)) ∧
    (1 ≤ n → s.i.toNat + n - 1 > 0xFFF →
      exec (.drw x y n) s = .next (latched 2 (max s.i.toNat 0x1000) s)) ∧
    ((n = 0 ∨ s.i.toNat + n - 1 ≤ 0xFFF) →
      let covers := spriteCovers (fun row => s.mem.read (s.i.toNat + row)) n ((s.getV x).toNat % 64)
        ((s.getV y).toNat % 32)
      ∃ t, exec (.drw x y n) s = .next t ∧
        (∀ px < 64, ∀ py < 32,
          (covers px py → t.disp.get px py = !s.disp.get px py) ∧
          (¬ covers px py → t.disp.get px py = s.disp.get px py)) ∧
        flagIs (∃ px < 64, ∃ py < 32, covers px py ∧ s.disp.get px py = true) (t.getV 15) ∧
        t.dirty = true ∧ pcAdvanced s t ∧ sameRegistersBut [15] s t ∧ t.i = s.i ∧ sameMemory s t ∧
        sameStack s t ∧ sameTimers s t ∧ sameControl s t ∧ t.rng = s.rng)

/-- 43_display.md R143 (a), its first sentence: drawing the same sprite at the same coordinates twice, with nothing
between but a restored VF, gives the display back. VF is put back because it may be a coordinate. The
spec marks the rule as its own inference from R141. -/
def Obligations.DrawingTwiceRestoresTheDisplay : Prop :=
  ∀ (x y : Reg) (n : Nat) (s t : State), s.i.toNat + n ≤ 0x1000 → exec (.drw x y n) s = .next t →
    ∃ u, exec (.drw x y n) { t with v := s.v } = .next u ∧
      ∀ px py, u.disp.get px py = s.disp.get px py

/-! ## The keypad -/

/-- 44_keypad.md R150, R151: the key is the one the register's value names; a value above 15 raises KeyIndexOutOfRange
with that value as detail and changes nothing else (R153). -/
def Obligations.KeySkipsTestTheNamedKey : Prop :=
  ∀ (x : Reg) (s : State),
    (∀ z < 16, encodes (0xE00E + x.val * 256 + z * 16) (.skp x) ∧ encodes (0xE001 + x.val * 256 + z * 16) (.sknp x)) ∧
    ((s.getV x).toNat ≤ 15 →
      (∃ t, exec (.skp x) s = .next t ∧ pcSkips (s.key.getLsbD (s.getV x).toNat = true) s t ∧ sameButPc s t) ∧
      (∃ t, exec (.sknp x) s = .next t ∧ pcSkips (s.key.getLsbD (s.getV x).toNat = false) s t ∧ sameButPc s t)) ∧
    ((s.getV x).toNat > 15 →
      exec (.skp x) s = .next (latched 5 (s.getV x).toNat s) ∧
      exec (.sknp x) s = .next (latched 5 (s.getV x).toNat s))

/-- 44_keypad.md R152: with keys pressed the least of them goes to V[x]; with none the instruction comes again and
nothing changes. -/
def Obligations.AwaitKeyTakesTheLowestKey : Prop :=
  ∀ (x : Reg) (s : State),
    encodes (0xF00A + x.val * 256) (.ldVxK x) ∧
    (∀ k0 < 16, s.key.getLsbD k0 = true → (∀ k < k0, s.key.getLsbD k = false) →
      ∃ t, exec (.ldVxK x) s = .next t ∧ (t.getV x).toNat = k0 ∧ sameRegistersBut [x] s t ∧ pcAdvanced s t ∧
        sameButVPc s t) ∧
    ((∀ k < 16, s.key.getLsbD k = false) → exec (.ldVxK x) s = .next s)

/-! ## Timers, index, memory -/

/-- 45_timer_index_memory.md R160, R161, R162. -/
def Obligations.TimerTransfersMoveOneByte : Prop :=
  ∀ (x : Reg) (s : State),
    encodes (0xF007 + x.val * 256) (.ldVxDT x) ∧ encodes (0xF015 + x.val * 256) (.ldDTVx x) ∧
    encodes (0xF018 + x.val * 256) (.ldSTVx x) ∧
    (∃ t, exec (.ldVxDT x) s = .next t ∧ t.getV x = s.dt ∧ sameRegistersBut [x] s t ∧ pcAdvanced s t ∧
      sameButVPc s t) ∧
    (∃ t, exec (.ldDTVx x) s = .next t ∧ t.dt = s.getV x ∧ t.st = s.st ∧ sameRegistersBut [] s t ∧ t.i = s.i ∧
      pcAdvanced s t ∧ sameMemory s t ∧ sameStack s t ∧ sameDisplay s t ∧ sameControl s t ∧ t.rng = s.rng) ∧
    (∃ t, exec (.ldSTVx x) s = .next t ∧ t.st = s.getV x ∧ t.dt = s.dt ∧ sameRegistersBut [] s t ∧ t.i = s.i ∧
      pcAdvanced s t ∧ sameMemory s t ∧ sameStack s t ∧ sameDisplay s t ∧ sameControl s t ∧ t.rng = s.rng)

/-- 45_timer_index_memory.md R163 and R164: the sum modulo 65536 with the flag of the exact sum, and the glyph address of
the whole byte. -/
def Obligations.IndexArithmeticIsUnmasked : Prop :=
  ∀ (x : Reg) (s : State),
    encodes (0xF01E + x.val * 256) (.addIVx x) ∧ encodes (0xF029 + x.val * 256) (.ldFVx x) ∧
    (∃ t, exec (.addIVx x) s = .next t ∧ t.i.toNat = (s.i.toNat + (s.getV x).toNat) % 65536 ∧
      flagIs (s.i.toNat + (s.getV x).toNat > 0xFFF) (t.getV 15) ∧ sameRegistersBut [15] s t ∧ pcAdvanced s t ∧
      sameButVPcI s t) ∧
    (∃ t, exec (.ldFVx x) s = .next t ∧ t.i.toNat = 0x050 + 5 * (s.getV x).toNat ∧ sameRegistersBut [] s t ∧
      pcAdvanced s t ∧ sameButVPcI s t)

/-- 45_timer_index_memory.md R165: hundreds, tens, ones at I, I + 1, I + 2, or AddressOutOfRange before any write. Memory
is canonical (`Memory.wf`), which `StepKeepsLegalStates` keeps. -/
def Obligations.BcdStoresThreeDigits : Prop :=
  ∀ (x : Reg) (s : State), s.mem.wf →
    encodes (0xF033 + x.val * 256) (.ldBVx x) ∧
    (s.i.toNat + 2 > 0xFFF → exec (.ldBVx x) s = .next (latched 2 (max s.i.toNat 0x1000) s)) ∧
    (s.i.toNat + 2 ≤ 0xFFF → ∃ t, exec (.ldBVx x) s = .next t ∧
      (t.mem.read s.i.toNat).toNat = (s.getV x).toNat / 100 ∧
      (t.mem.read (s.i.toNat + 1)).toNat = (s.getV x).toNat / 10 % 10 ∧
      (t.mem.read (s.i.toNat + 2)).toNat = (s.getV x).toNat % 10 ∧
      sameMemoryOutside (indexBase s) 3 s t ∧ sameRegistersBut [] s t ∧ t.i = s.i ∧ pcAdvanced s t ∧ sameStack s t ∧
      sameTimers s t ∧ sameDisplay s t ∧ sameControl s t ∧ t.rng = s.rng)

/-- 45_timer_index_memory.md R166: V[0] to V[x] to the bytes at I to I + x, or AddressOutOfRange before any write. Memory
is canonical, as in `BcdStoresThreeDigits`. -/
def Obligations.BlockStoreWritesRegistersInOrder : Prop :=
  ∀ (x : Reg) (s : State), s.mem.wf →
    encodes (0xF055 + x.val * 256) (.ldMemVx x) ∧
    (s.i.toNat + x.val > 0xFFF → exec (.ldMemVx x) s = .next (latched 2 (max s.i.toNat 0x1000) s)) ∧
    (s.i.toNat + x.val ≤ 0xFFF → ∃ t, exec (.ldMemVx x) s = .next t ∧
      (∀ r : Reg, r ≤ x → t.mem.read (s.i.toNat + r.val) = s.getV r) ∧
      sameMemoryOutside (indexBase s) (x.val + 1) s t ∧ sameRegistersBut [] s t ∧ t.i = s.i ∧ pcAdvanced s t ∧
      sameStack s t ∧ sameTimers s t ∧ sameDisplay s t ∧ sameControl s t ∧ t.rng = s.rng)

/-- 45_timer_index_memory.md R167: the bytes at I to I + x to V[0] to V[x], the registers above x unchanged, or
AddressOutOfRange before any write. -/
def Obligations.BlockLoadReadsRegistersInOrder : Prop :=
  ∀ (x : Reg) (s : State),
    encodes (0xF065 + x.val * 256) (.ldVxMem x) ∧
    (s.i.toNat + x.val > 0xFFF → exec (.ldVxMem x) s = .next (latched 2 (max s.i.toNat 0x1000) s)) ∧
    (s.i.toNat + x.val ≤ 0xFFF → ∃ t, exec (.ldVxMem x) s = .next t ∧
      (∀ r : Reg, r ≤ x → t.getV r = s.mem.read (s.i.toNat + r.val)) ∧
      (∀ r : Reg, x < r → t.getV r = s.getV r) ∧ pcAdvanced s t ∧ sameButVPc s t)

/-- The round trip of 45_timer_index_memory.md R167: after a block store, whatever the registers are then set to, a block
load of the same extent from the same I gives back the stored registers exactly. -/
def Obligations.BlockStoreThenLoadRestoresRegisters : Prop :=
  ∀ (x : Reg) (s t : State) (v : Vector Byte 16), s.mem.wf → s.i.toNat + x.val ≤ 0xFFF →
    exec (.ldMemVx x) s = .next t →
    ∃ u, exec (.ldVxMem x) { t with v := v } = .next u ∧ ∀ r : Reg, r ≤ x → u.getV r = s.getV r

/-- 20_memory.md R62 for a block store: the very next fetch of the stored bytes sees them, the first as the high byte.
The spec marks the rule as its own inference from R59 and R21. -/
def Obligations.StoredWordIsFetchedNext : Prop :=
  ∀ (x : Reg) (s t : State), s.mem.wf → s.fault = 0 → 1 ≤ x.val → s.i.toNat + x.val ≤ 0xFFF →
    exec (.ldMemVx x) s = .next t →
    ∀ w : Word, w.toNat = (s.getV 0).toNat * 256 + (s.getV 1).toNat →
      step { t with pc := s.i } = exec (decodeWord w) { t with pc := s.i, opcode := w }

/-! ## Host events -/

/-- 60_exceptions.md R195: both timers go down by one unless they are zero, nothing else changes, and a timer at N is at
zero after exactly N ticks and stays there. -/
def Obligations.TickCountsDownToZero : Prop :=
  (∀ s : State, event .tick s = .next (tick s, .done) ∧
    (tick s).dt.toNat = s.dt.toNat - 1 ∧ (tick s).st.toNat = s.st.toNat - 1 ∧
    tick s = { s with dt := (tick s).dt, st := (tick s).st }) ∧
  ∀ (n : Nat) (s : State), ∃ t, runEvents (List.replicate n .tick) s = .next t ∧
    t.dt.toNat = s.dt.toNat - n ∧ t.st.toNat = s.st.toNat - n

/-- 70_reset_and_hazards.md R210: the value Reset gives every piece of state, from any state. The last clause is the model's
choice (log entry 2): R210 says that RNG is reseeded, and the model holds the seed. -/
def Obligations.ResetGivesEveryStateItsValue : Prop :=
  ∀ (seed : Nat) (s : State), event (.reset seed) s = .next (resetWith seed s, .done) ∧
    let t := resetWith seed s
    (∀ a < 4096, t.mem.read a = resetByte a) ∧ (∀ r, t.getV r = 0) ∧ (∀ k : Fin 16, t.stack[k.val] = 0) ∧
    t.key = 0 ∧ t.i = 0 ∧ t.pc = 0x0200 ∧ t.sp = 0 ∧ t.dt = 0 ∧ t.st = 0 ∧ t.opcode = 0 ∧
    (∀ x y, t.disp.get x y = false) ∧ t.dirty = true ∧ t.fault = 0 ∧ t.faultInfo = 0 ∧ t.rng.seed = seed

/-- 70_reset_and_hazards.md R213: an image of more than 3584 bytes is refused with code 1 and nothing changes; otherwise
the state is that of a reset but for the image's bytes from 0x200 on. -/
def Obligations.LoadPlacesTheImage : Prop :=
  ∀ (seed : Nat) (image : List Byte) (s : State),
    (image.length > 3584 → event (.load seed image) s = .next (s, .loadRefused 1)) ∧
    (image.length ≤ 3584 → ∃ t, event (.load seed image) s = .next (t, .loaded) ∧
      (∀ k (h : k < image.length), t.mem.read (0x200 + k) = image[k]) ∧
      (∀ a, ¬ (0x200 ≤ a ∧ a < 0x200 + image.length) → t.mem.read a = (resetWith seed s).mem.read a) ∧
      t = { resetWith seed s with mem := t.mem })

/-- 60_exceptions.md R201 and R202: a snapshot of a legal state, restored into any state, reproduces every item but
DIRTY, which is set, and RNG, which is left as it is; taking it changes nothing. Which values a `Restore` takes is the
model's choice (log entry 14). -/
def Obligations.RestoreReproducesTheSnapshot : Prop :=
  ∀ s u : State, s.legal →
    event .snapshot s = .next (s, .taken (takeSnapshot s)) ∧
    event (.restore (takeSnapshot s)) u = .next ({ s with dirty := true, rng := u.rng }, .done)

/-- 60_exceptions.md R197, R198 and R199: the keys are set, DIRTY is cleared, nothing else changes; a cell reads as all
ones or zero at flat index y*64 + x; the host has no way to write the display but Reset, Load and Restore; the tone is
ST ≠ 0. -/
def Obligations.KeyAndPortEvents : Prop :=
  ∀ (s : State) (k : BitVec 16),
    event (.setKeys k) s = .next ({ s with key := k }, .done) ∧
    event .clearDirty s = .next ({ s with dirty := false }, .done) ∧
    (∀ x < 64, ∀ y < 32,
      displayPort s (y * 64 + x) = if s.disp.get x y = true then 0xFFFFFFFF#32 else 0#32) ∧
    (∀ (e : Event) (t : State) (r : Reply), e.replacesState = false → e ≠ .step → event e s = .next (t, r) →
      t.disp = s.disp) ∧
    dirtyPort s = s.dirty ∧ audioPort s = s.st ∧ (tone s = true ↔ s.st ≠ 0)

/-- 60_exceptions.md R203: what the debug port shows between events. -/
def Obligations.DebugPortShowsTheNamedState : Prop :=
  ∀ s : State,
    (debugPort s).pc = s.pc ∧ (debugPort s).i = s.i ∧ (debugPort s).opcode = s.opcode ∧ (debugPort s).v = s.v ∧
    (debugPort s).stack = s.stack ∧ (debugPort s).sp = s.sp ∧ (debugPort s).dt = s.dt ∧ (debugPort s).st = s.st ∧
    (debugPort s).fault = s.fault ∧ (debugPort s).faultInfo = s.faultInfo
end

