-- ==== Sys2Proof/Laws/Decode.lean ====
section
/-! SUPPORT. Fields of a word as arithmetic on its value, and the fields of the words the encoder builds
(30_encoding.md R71 to R73). -/

namespace Sys2Proof

theorem bits_op (w : Word) : bits w 15 12 = w.toNat / 4096 := by
  have := w.isLt
  simp only [bits]
  omega

theorem bits_x (w : Word) : bits w 11 8 = w.toNat / 256 % 16 := rfl

theorem bits_y (w : Word) : bits w 7 4 = w.toNat / 16 % 16 := rfl

theorem bits_n (w : Word) : bits w 3 0 = w.toNat % 16 := by simp only [bits]; omega

theorem bits_kk (w : Word) : bits w 7 0 = w.toNat % 256 := by simp only [bits]; omega

theorem bits_nnn (w : Word) : bits w 11 0 = w.toNat % 4096 := by simp only [bits]; omega

theorem bits_high (w : Word) : bits w 15 8 = w.toNat / 256 := by
  have := w.isLt
  simp only [bits]
  omega

/-- The two bytes of a word join to the word again (20_memory.md R50). -/
theorem joinBytes_highByte_lowByte (w : Word) : joinBytes (highByte w) (lowByte w) = w := by
  have := w.isLt
  apply BitVec.eq_of_toNat_eq
  simp only [joinBytes, highByte, lowByte, bits_high, bits_kk, BitVec.toNat_ofNat]
  omega

/-- Decoding a stored word decodes the word. -/
theorem decode_wordBytes (w : Word) : decode (wordBytes w) = .ok (decodeWord w, []) := by
  simp only [wordBytes, decode, joinBytes_highByte_lowByte]

theorem decodeTableWord_eq (nbits w : Nat) : decodeTableWord nbits w = some (decodeWord (tableWord nbits w)) := by
  simp only [decodeTableWord, decode_wordBytes]

theorem nibbles_toNat {op a b c : Nat} (h1 : op ≤ 15) (h2 : a ≤ 15) (h3 : b ≤ 15) (h4 : c ≤ 15) :
    (nibbles op a b c).toNat = op * 4096 + a * 256 + b * 16 + c := by
  simp only [nibbles, BitVec.toNat_ofNat]
  omega

theorem wordA_toNat {op : Nat} {nnn : Word} (h1 : op ≤ 15) (h2 : nnn.toNat ≤ 0xFFF) :
    (wordA op nnn).toNat = op * 4096 + nnn.toNat := by
  simp only [wordA, BitVec.toNat_ofNat]
  omega

theorem wordXK_toNat {op kk : Nat} {x : Reg} (h1 : op ≤ 15) (h2 : kk ≤ 255) :
    (wordXK op x kk).toNat = op * 4096 + x.val * 256 + kk := by
  have := x.isLt
  simp only [wordXK, BitVec.toNat_ofNat]
  omega

theorem fieldX_eq {w : Word} {x : Reg} (h : w.toNat / 256 % 16 = x.val) : fieldX w = x := by
  apply Fin.ext
  simp only [fieldX, Fin.val_ofNat, bits_x]
  omega

theorem fieldY_eq {w : Word} {y : Reg} (h : w.toNat / 16 % 16 = y.val) : fieldY w = y := by
  apply Fin.ext
  simp only [fieldY, Fin.val_ofNat, bits_y]
  omega

theorem fieldKK_eq {w : Word} {kk : Byte} (h : w.toNat % 256 = kk.toNat) : fieldKK w = kk := by
  apply BitVec.eq_of_toNat_eq
  simp only [fieldKK, BitVec.toNat_ofNat, bits_kk]
  omega

theorem fieldNNN_eq {w nnn : Word} (h : w.toNat % 4096 = nnn.toNat) : fieldNNN w = nnn := by
  apply BitVec.eq_of_toNat_eq
  simp only [fieldNNN, BitVec.toNat_ofNat, bits_nnn]
  omega

theorem fieldN_eq {w : Word} {n : Nat} (h : w.toNat % 16 = n) : fieldN w = n := by
  simp only [fieldN, bits_n, h]

/-! ### Which instruction a word is, from its selector and its fields (30_encoding.md R74 to R78, R80) -/

theorem decode_cls {w : Word} (h : w.toNat / 4096 = 0x0) (hs : w.toNat % 16 = 0x0) :
    decodeWord w = .cls := by
  simp [decodeWord, bits_op, h, decodeFamily0, bits_n, hs]

theorem decode_ret {w : Word} (h : w.toNat / 4096 = 0x0) (hs : w.toNat % 16 = 0xE) :
    decodeWord w = .ret := by
  simp [decodeWord, bits_op, h, decodeFamily0, bits_n, hs]

theorem decode_jp {w : Word} {nnn : Word} (h : w.toNat / 4096 = 0x1) (hn : w.toNat % 4096 = nnn.toNat) :
    decodeWord w = .jp nnn := by
  simp [decodeWord, bits_op, h, fieldNNN_eq hn]

theorem decode_call {w : Word} {nnn : Word} (h : w.toNat / 4096 = 0x2) (hn : w.toNat % 4096 = nnn.toNat) :
    decodeWord w = .call nnn := by
  simp [decodeWord, bits_op, h, fieldNNN_eq hn]

theorem decode_seImm {w : Word} {x : Reg} {kk : Byte} (h : w.toNat / 4096 = 0x3) (hx : w.toNat / 256 % 16 = x.val) (hk : w.toNat % 256 = kk.toNat) :
    decodeWord w = .seImm x kk := by
  simp [decodeWord, bits_op, h, fieldX_eq hx, fieldKK_eq hk]

theorem decode_sneImm {w : Word} {x : Reg} {kk : Byte} (h : w.toNat / 4096 = 0x4) (hx : w.toNat / 256 % 16 = x.val) (hk : w.toNat % 256 = kk.toNat) :
    decodeWord w = .sneImm x kk := by
  simp [decodeWord, bits_op, h, fieldX_eq hx, fieldKK_eq hk]

theorem decode_seReg {w : Word} {x : Reg} {y : Reg} (h : w.toNat / 4096 = 0x5) (hx : w.toNat / 256 % 16 = x.val) (hy : w.toNat / 16 % 16 = y.val) :
    decodeWord w = .seReg x y := by
  simp [decodeWord, bits_op, h, fieldX_eq hx, fieldY_eq hy]

theorem decode_ldImm {w : Word} {x : Reg} {kk : Byte} (h : w.toNat / 4096 = 0x6) (hx : w.toNat / 256 % 16 = x.val) (hk : w.toNat % 256 = kk.toNat) :
    decodeWord w = .ldImm x kk := by
  simp [decodeWord, bits_op, h, fieldX_eq hx, fieldKK_eq hk]

theorem decode_addImm {w : Word} {x : Reg} {kk : Byte} (h : w.toNat / 4096 = 0x7) (hx : w.toNat / 256 % 16 = x.val) (hk : w.toNat % 256 = kk.toNat) :
    decodeWord w = .addImm x kk := by
  simp [decodeWord, bits_op, h, fieldX_eq hx, fieldKK_eq hk]

theorem decode_ldReg {w : Word} {x : Reg} {y : Reg} (h : w.toNat / 4096 = 0x8) (hs : w.toNat % 16 = 0x0) (hx : w.toNat / 256 % 16 = x.val) (hy : w.toNat / 16 % 16 = y.val) :
    decodeWord w = .ldReg x y := by
  simp [decodeWord, bits_op, h, decodeFamily8, bits_n, hs, fieldX_eq hx, fieldY_eq hy]

theorem decode_orReg {w : Word} {x : Reg} {y : Reg} (h : w.toNat / 4096 = 0x8) (hs : w.toNat % 16 = 0x1) (hx : w.toNat / 256 % 16 = x.val) (hy : w.toNat / 16 % 16 = y.val) :
    decodeWord w = .orReg x y := by
  simp [decodeWord, bits_op, h, decodeFamily8, bits_n, hs, fieldX_eq hx, fieldY_eq hy]

theorem decode_andReg {w : Word} {x : Reg} {y : Reg} (h : w.toNat / 4096 = 0x8) (hs : w.toNat % 16 = 0x2) (hx : w.toNat / 256 % 16 = x.val) (hy : w.toNat / 16 % 16 = y.val) :
    decodeWord w = .andReg x y := by
  simp [decodeWord, bits_op, h, decodeFamily8, bits_n, hs, fieldX_eq hx, fieldY_eq hy]

theorem decode_xorReg {w : Word} {x : Reg} {y : Reg} (h : w.toNat / 4096 = 0x8) (hs : w.toNat % 16 = 0x3) (hx : w.toNat / 256 % 16 = x.val) (hy : w.toNat / 16 % 16 = y.val) :
    decodeWord w = .xorReg x y := by
  simp [decodeWord, bits_op, h, decodeFamily8, bits_n, hs, fieldX_eq hx, fieldY_eq hy]

theorem decode_addReg {w : Word} {x : Reg} {y : Reg} (h : w.toNat / 4096 = 0x8) (hs : w.toNat % 16 = 0x4) (hx : w.toNat / 256 % 16 = x.val) (hy : w.toNat / 16 % 16 = y.val) :
    decodeWord w = .addReg x y := by
  simp [decodeWord, bits_op, h, decodeFamily8, bits_n, hs, fieldX_eq hx, fieldY_eq hy]

theorem decode_subReg {w : Word} {x : Reg} {y : Reg} (h : w.toNat / 4096 = 0x8) (hs : w.toNat % 16 = 0x5) (hx : w.toNat / 256 % 16 = x.val) (hy : w.toNat / 16 % 16 = y.val) :
    decodeWord w = .subReg x y := by
  simp [decodeWord, bits_op, h, decodeFamily8, bits_n, hs, fieldX_eq hx, fieldY_eq hy]

theorem decode_shr {w : Word} {x : Reg} {y : Reg} (h : w.toNat / 4096 = 0x8) (hs : w.toNat % 16 = 0x6) (hx : w.toNat / 256 % 16 = x.val) (hy : w.toNat / 16 % 16 = y.val) :
    decodeWord w = .shr x y := by
  simp [decodeWord, bits_op, h, decodeFamily8, bits_n, hs, fieldX_eq hx, fieldY_eq hy]

theorem decode_subnReg {w : Word} {x : Reg} {y : Reg} (h : w.toNat / 4096 = 0x8) (hs : w.toNat % 16 = 0x7) (hx : w.toNat / 256 % 16 = x.val) (hy : w.toNat / 16 % 16 = y.val) :
    decodeWord w = .subnReg x y := by
  simp [decodeWord, bits_op, h, decodeFamily8, bits_n, hs, fieldX_eq hx, fieldY_eq hy]

theorem decode_shl {w : Word} {x : Reg} {y : Reg} (h : w.toNat / 4096 = 0x8) (hs : w.toNat % 16 = 0xE) (hx : w.toNat / 256 % 16 = x.val) (hy : w.toNat / 16 % 16 = y.val) :
    decodeWord w = .shl x y := by
  simp [decodeWord, bits_op, h, decodeFamily8, bits_n, hs, fieldX_eq hx, fieldY_eq hy]

theorem decode_sneReg {w : Word} {x : Reg} {y : Reg} (h : w.toNat / 4096 = 0x9) (hx : w.toNat / 256 % 16 = x.val) (hy : w.toNat / 16 % 16 = y.val) :
    decodeWord w = .sneReg x y := by
  simp [decodeWord, bits_op, h, fieldX_eq hx, fieldY_eq hy]

theorem decode_ldI {w : Word} {nnn : Word} (h : w.toNat / 4096 = 0xA) (hn : w.toNat % 4096 = nnn.toNat) :
    decodeWord w = .ldI nnn := by
  simp [decodeWord, bits_op, h, fieldNNN_eq hn]

theorem decode_jpV0 {w : Word} {nnn : Word} (h : w.toNat / 4096 = 0xB) (hn : w.toNat % 4096 = nnn.toNat) :
    decodeWord w = .jpV0 nnn := by
  simp [decodeWord, bits_op, h, fieldNNN_eq hn]

theorem decode_rnd {w : Word} {x : Reg} {kk : Byte} (h : w.toNat / 4096 = 0xC) (hx : w.toNat / 256 % 16 = x.val) (hk : w.toNat % 256 = kk.toNat) :
    decodeWord w = .rnd x kk := by
  simp [decodeWord, bits_op, h, fieldX_eq hx, fieldKK_eq hk]

theorem decode_drw {w : Word} {x : Reg} {y : Reg} {n : Nat} (h : w.toNat / 4096 = 0xD) (hx : w.toNat / 256 % 16 = x.val) (hy : w.toNat / 16 % 16 = y.val) (hn : w.toNat % 16 = n) :
    decodeWord w = .drw x y n := by
  simp [decodeWord, bits_op, h, fieldX_eq hx, fieldY_eq hy, fieldN_eq hn]

theorem decode_skp {w : Word} {x : Reg} (h : w.toNat / 4096 = 0xE) (hs : w.toNat % 16 = 0xE) (hx : w.toNat / 256 % 16 = x.val) :
    decodeWord w = .skp x := by
  simp [decodeWord, bits_op, h, decodeFamilyE, bits_n, hs, fieldX_eq hx]

theorem decode_sknp {w : Word} {x : Reg} (h : w.toNat / 4096 = 0xE) (hs : w.toNat % 16 = 0x1) (hx : w.toNat / 256 % 16 = x.val) :
    decodeWord w = .sknp x := by
  simp [decodeWord, bits_op, h, decodeFamilyE, bits_n, hs, fieldX_eq hx]

theorem decode_ldVxDT {w : Word} {x : Reg} (h : w.toNat / 4096 = 0xF) (hs : w.toNat % 256 = 0x07) (hx : w.toNat / 256 % 16 = x.val) :
    decodeWord w = .ldVxDT x := by
  simp [decodeWord, bits_op, h, decodeFamilyF, bits_kk, hs, fieldX_eq hx]

theorem decode_ldVxK {w : Word} {x : Reg} (h : w.toNat / 4096 = 0xF) (hs : w.toNat % 256 = 0x0A) (hx : w.toNat / 256 % 16 = x.val) :
    decodeWord w = .ldVxK x := by
  simp [decodeWord, bits_op, h, decodeFamilyF, bits_kk, hs, fieldX_eq hx]

theorem decode_ldDTVx {w : Word} {x : Reg} (h : w.toNat / 4096 = 0xF) (hs : w.toNat % 256 = 0x15) (hx : w.toNat / 256 % 16 = x.val) :
    decodeWord w = .ldDTVx x := by
  simp [decodeWord, bits_op, h, decodeFamilyF, bits_kk, hs, fieldX_eq hx]

theorem decode_ldSTVx {w : Word} {x : Reg} (h : w.toNat / 4096 = 0xF) (hs : w.toNat % 256 = 0x18) (hx : w.toNat / 256 % 16 = x.val) :
    decodeWord w = .ldSTVx x := by
  simp [decodeWord, bits_op, h, decodeFamilyF, bits_kk, hs, fieldX_eq hx]

theorem decode_addIVx {w : Word} {x : Reg} (h : w.toNat / 4096 = 0xF) (hs : w.toNat % 256 = 0x1E) (hx : w.toNat / 256 % 16 = x.val) :
    decodeWord w = .addIVx x := by
  simp [decodeWord, bits_op, h, decodeFamilyF, bits_kk, hs, fieldX_eq hx]

theorem decode_ldFVx {w : Word} {x : Reg} (h : w.toNat / 4096 = 0xF) (hs : w.toNat % 256 = 0x29) (hx : w.toNat / 256 % 16 = x.val) :
    decodeWord w = .ldFVx x := by
  simp [decodeWord, bits_op, h, decodeFamilyF, bits_kk, hs, fieldX_eq hx]

theorem decode_ldBVx {w : Word} {x : Reg} (h : w.toNat / 4096 = 0xF) (hs : w.toNat % 256 = 0x33) (hx : w.toNat / 256 % 16 = x.val) :
    decodeWord w = .ldBVx x := by
  simp [decodeWord, bits_op, h, decodeFamilyF, bits_kk, hs, fieldX_eq hx]

theorem decode_ldMemVx {w : Word} {x : Reg} (h : w.toNat / 4096 = 0xF) (hs : w.toNat % 256 = 0x55) (hx : w.toNat / 256 % 16 = x.val) :
    decodeWord w = .ldMemVx x := by
  simp [decodeWord, bits_op, h, decodeFamilyF, bits_kk, hs, fieldX_eq hx]

theorem decode_ldVxMem {w : Word} {x : Reg} (h : w.toNat / 4096 = 0xF) (hs : w.toNat % 256 = 0x65) (hx : w.toNat / 256 % 16 = x.val) :
    decodeWord w = .ldVxMem x := by
  simp [decodeWord, bits_op, h, decodeFamilyF, bits_kk, hs, fieldX_eq hx]

/-! ### All a word can decode to -/

theorem of_ite {P : Instr → Prop} {c : Prop} [Decidable c] {a b : Instr} (ha : P a) (hb : P b) :
    P (if c then a else b) := by
  split <;> assumption

theorem decodeFamily0_all {P : Instr → Prop} {w : Word} (hnop : P .nop)
    (h_cls : P .cls)
    (h_ret : P .ret) : P (decodeFamily0 w) :=
  of_ite h_cls (of_ite h_ret hnop)

theorem decodeFamily8_all {P : Instr → Prop} {w : Word} (hnop : P .nop)
    (h_ldReg : P (.ldReg (fieldX w) (fieldY w)))
    (h_orReg : P (.orReg (fieldX w) (fieldY w)))
    (h_andReg : P (.andReg (fieldX w) (fieldY w)))
    (h_xorReg : P (.xorReg (fieldX w) (fieldY w)))
    (h_addReg : P (.addReg (fieldX w) (fieldY w)))
    (h_subReg : P (.subReg (fieldX w) (fieldY w)))
    (h_shr : P (.shr (fieldX w) (fieldY w)))
    (h_subnReg : P (.subnReg (fieldX w) (fieldY w)))
    (h_shl : P (.shl (fieldX w) (fieldY w))) : P (decodeFamily8 w) :=
  of_ite h_ldReg (of_ite h_orReg (of_ite h_andReg (of_ite h_xorReg (of_ite h_addReg (of_ite h_subReg (of_ite h_shr (of_ite h_subnReg (of_ite h_shl hnop))))))))

theorem decodeFamilyE_all {P : Instr → Prop} {w : Word} (hnop : P .nop)
    (h_sknp : P (.sknp (fieldX w)))
    (h_skp : P (.skp (fieldX w))) : P (decodeFamilyE w) :=
  of_ite h_sknp (of_ite h_skp hnop)

theorem decodeFamilyF_all {P : Instr → Prop} {w : Word} (hnop : P .nop)
    (h_ldVxDT : P (.ldVxDT (fieldX w)))
    (h_ldVxK : P (.ldVxK (fieldX w)))
    (h_ldDTVx : P (.ldDTVx (fieldX w)))
    (h_ldSTVx : P (.ldSTVx (fieldX w)))
    (h_addIVx : P (.addIVx (fieldX w)))
    (h_ldFVx : P (.ldFVx (fieldX w)))
    (h_ldBVx : P (.ldBVx (fieldX w)))
    (h_ldMemVx : P (.ldMemVx (fieldX w)))
    (h_ldVxMem : P (.ldVxMem (fieldX w))) : P (decodeFamilyF w) :=
  of_ite h_ldVxDT (of_ite h_ldVxK (of_ite h_ldDTVx (of_ite h_ldSTVx (of_ite h_addIVx (of_ite h_ldFVx (of_ite h_ldBVx (of_ite h_ldMemVx (of_ite h_ldVxMem hnop))))))))

/-- A property of the instruction a word decodes to: it is enough to show it of each instruction, with the fields of the
word as operands (30_encoding.md R81). -/
theorem decodeWord_all {P : Instr → Prop} (w : Word) (hnop : P .nop)
    (h_cls : P .cls)
    (h_ret : P .ret)
    (h_jp : P (.jp (fieldNNN w)))
    (h_call : P (.call (fieldNNN w)))
    (h_seImm : P (.seImm (fieldX w) (fieldKK w)))
    (h_sneImm : P (.sneImm (fieldX w) (fieldKK w)))
    (h_seReg : P (.seReg (fieldX w) (fieldY w)))
    (h_ldImm : P (.ldImm (fieldX w) (fieldKK w)))
    (h_addImm : P (.addImm (fieldX w) (fieldKK w)))
    (h_ldReg : P (.ldReg (fieldX w) (fieldY w)))
    (h_orReg : P (.orReg (fieldX w) (fieldY w)))
    (h_andReg : P (.andReg (fieldX w) (fieldY w)))
    (h_xorReg : P (.xorReg (fieldX w) (fieldY w)))
    (h_addReg : P (.addReg (fieldX w) (fieldY w)))
    (h_subReg : P (.subReg (fieldX w) (fieldY w)))
    (h_shr : P (.shr (fieldX w) (fieldY w)))
    (h_subnReg : P (.subnReg (fieldX w) (fieldY w)))
    (h_shl : P (.shl (fieldX w) (fieldY w)))
    (h_sneReg : P (.sneReg (fieldX w) (fieldY w)))
    (h_ldI : P (.ldI (fieldNNN w)))
    (h_jpV0 : P (.jpV0 (fieldNNN w)))
    (h_rnd : P (.rnd (fieldX w) (fieldKK w)))
    (h_drw : P (.drw (fieldX w) (fieldY w) (fieldN w)))
    (h_sknp : P (.sknp (fieldX w)))
    (h_skp : P (.skp (fieldX w)))
    (h_ldVxDT : P (.ldVxDT (fieldX w)))
    (h_ldVxK : P (.ldVxK (fieldX w)))
    (h_ldDTVx : P (.ldDTVx (fieldX w)))
    (h_ldSTVx : P (.ldSTVx (fieldX w)))
    (h_addIVx : P (.addIVx (fieldX w)))
    (h_ldFVx : P (.ldFVx (fieldX w)))
    (h_ldBVx : P (.ldBVx (fieldX w)))
    (h_ldMemVx : P (.ldMemVx (fieldX w)))
    (h_ldVxMem : P (.ldVxMem (fieldX w))) : P (decodeWord w) :=
  of_ite (decodeFamily0_all hnop h_cls h_ret) <|
  of_ite h_jp <|
  of_ite h_call <|
  of_ite h_seImm <|
  of_ite h_sneImm <|
  of_ite h_seReg <|
  of_ite h_ldImm <|
  of_ite h_addImm <|
  of_ite (decodeFamily8_all hnop h_ldReg h_orReg h_andReg h_xorReg h_addReg h_subReg h_shr h_subnReg h_shl) <|
  of_ite h_sneReg <|
  of_ite h_ldI <|
  of_ite h_jpV0 <|
  of_ite h_rnd <|
  of_ite h_drw <|
  of_ite (decodeFamilyE_all hnop h_sknp h_skp) <|
  (decodeFamilyF_all hnop h_ldVxDT h_ldVxK h_ldDTVx h_ldSTVx h_addIVx h_ldFVx h_ldBVx h_ldMemVx h_ldVxMem)

/-! ### The masks of the opcode map (30_encoding.md R80) -/

theorem and_low_toNat (w : Word) :
    (w &&& 0xF#16).toNat = w.toNat % 16 ∧ (w &&& 0xFF#16).toNat = w.toNat % 256 ∧
      (w &&& 0xFFF#16).toNat = w.toNat % 4096 := by
  simp only [BitVec.toNat_and]
  exact ⟨Nat.and_two_pow_sub_one_eq_mod w.toNat 4, Nat.and_two_pow_sub_one_eq_mod w.toNat 8,
    Nat.and_two_pow_sub_one_eq_mod w.toNat 12⟩

theorem and_0xF000_toNat (w : Word) : (w &&& 0xF000#16).toNat = w.toNat / 4096 * 4096 := by
  have h : (w &&& 0xF000#16) = (w >>> 12) <<< 12 := by
    ext i hi
    simp only [BitVec.getElem_and, BitVec.getElem_shiftLeft]
    interval_cases i <;> simp [BitVec.getLsbD] <;> rfl
  rw [h]
  have := w.isLt
  simp only [BitVec.toNat_shiftLeft, BitVec.toNat_ushiftRight, Nat.shiftLeft_eq, Nat.shiftRight_eq_div_pow]
  omega

theorem and_or_toNat (w a b : Word) (h : a &&& b = 0) :
    (w &&& (a ||| b)).toNat = (w &&& a).toNat + (w &&& b).toNat := by
  have h1 : w &&& (a ||| b) = (w &&& a) ||| (w &&& b) := by
    ext
    simp [Bool.and_or_distrib_left]
  have h2 : (w &&& a) &&& (w &&& b) = 0 := by
    have : (w &&& a) &&& (w &&& b) = w &&& (a &&& b) := by
      ext
      simp only [BitVec.getElem_and, Bool.and_left_comm, Bool.and_assoc, Bool.and_self_left]
    rw [this, h]
    exact BitVec.and_zero
  rw [h1, ← BitVec.add_eq_or_of_and_eq_zero _ _ h2, BitVec.toNat_add_of_and_eq_zero h2]

theorem and_0xF00F_toNat (w : Word) : (w &&& 0xF00F#16).toNat = w.toNat / 4096 * 4096 + w.toNat % 16 := by
  rw [show (0xF00F#16) = 0xF000#16 ||| 0xF#16 by decide, and_or_toNat _ _ _ (by decide), and_0xF000_toNat,
    (and_low_toNat w).1]

theorem and_0xF0FF_toNat (w : Word) : (w &&& 0xF0FF#16).toNat = w.toNat / 4096 * 4096 + w.toNat % 256 := by
  rw [show (0xF0FF#16) = 0xF000#16 ||| 0xFF#16 by decide, and_or_toNat _ _ _ (by decide), and_0xF000_toNat,
    (and_low_toNat w).2.1]

end Sys2Proof
end

