-- ==== Sys2Proof/Laws/State.lean ====
section
/-! SUPPORT. One lemma per field per update of the state, each true by definition, so that no later proof unfolds a record
update. -/

namespace Sys2Proof.Machine

/-! ### V[r] <- b (10_state.md R24) -/

@[simp] theorem setV_mem (s : State) (r : Reg) (b : Byte) : (s.setV r b).mem = s.mem := rfl
@[simp] theorem setV_v (s : State) (r : Reg) (b : Byte) : (s.setV r b).v = s.v.set r.val b := rfl
@[simp] theorem setV_i (s : State) (r : Reg) (b : Byte) : (s.setV r b).i = s.i := rfl
@[simp] theorem setV_pc (s : State) (r : Reg) (b : Byte) : (s.setV r b).pc = s.pc := rfl
@[simp] theorem setV_sp (s : State) (r : Reg) (b : Byte) : (s.setV r b).sp = s.sp := rfl
@[simp] theorem setV_stack (s : State) (r : Reg) (b : Byte) : (s.setV r b).stack = s.stack := rfl
@[simp] theorem setV_dt (s : State) (r : Reg) (b : Byte) : (s.setV r b).dt = s.dt := rfl
@[simp] theorem setV_st (s : State) (r : Reg) (b : Byte) : (s.setV r b).st = s.st := rfl
@[simp] theorem setV_opcode (s : State) (r : Reg) (b : Byte) : (s.setV r b).opcode = s.opcode := rfl
@[simp] theorem setV_disp (s : State) (r : Reg) (b : Byte) : (s.setV r b).disp = s.disp := rfl
@[simp] theorem setV_key (s : State) (r : Reg) (b : Byte) : (s.setV r b).key = s.key := rfl
@[simp] theorem setV_dirty (s : State) (r : Reg) (b : Byte) : (s.setV r b).dirty = s.dirty := rfl
@[simp] theorem setV_rng (s : State) (r : Reg) (b : Byte) : (s.setV r b).rng = s.rng := rfl
@[simp] theorem setV_fault (s : State) (r : Reg) (b : Byte) : (s.setV r b).fault = s.fault := rfl
@[simp] theorem setV_faultInfo (s : State) (r : Reg) (b : Byte) : (s.setV r b).faultInfo = s.faultInfo := rfl
@[simp] theorem setV_npc (s : State) (r : Reg) (b : Byte) : (s.setV r b).npc = s.npc := rfl

/-! ### the bytes written to MEM (20_memory.md R54) -/

@[simp] theorem storeBytes_mem (s : State) (base : Nat) (bs : List Byte) : (s.storeBytes base bs).mem = writeBytes s.mem base bs := rfl
@[simp] theorem storeBytes_v (s : State) (base : Nat) (bs : List Byte) : (s.storeBytes base bs).v = s.v := rfl
@[simp] theorem storeBytes_i (s : State) (base : Nat) (bs : List Byte) : (s.storeBytes base bs).i = s.i := rfl
@[simp] theorem storeBytes_pc (s : State) (base : Nat) (bs : List Byte) : (s.storeBytes base bs).pc = s.pc := rfl
@[simp] theorem storeBytes_sp (s : State) (base : Nat) (bs : List Byte) : (s.storeBytes base bs).sp = s.sp := rfl
@[simp] theorem storeBytes_stack (s : State) (base : Nat) (bs : List Byte) : (s.storeBytes base bs).stack = s.stack := rfl
@[simp] theorem storeBytes_dt (s : State) (base : Nat) (bs : List Byte) : (s.storeBytes base bs).dt = s.dt := rfl
@[simp] theorem storeBytes_st (s : State) (base : Nat) (bs : List Byte) : (s.storeBytes base bs).st = s.st := rfl
@[simp] theorem storeBytes_opcode (s : State) (base : Nat) (bs : List Byte) : (s.storeBytes base bs).opcode = s.opcode := rfl
@[simp] theorem storeBytes_disp (s : State) (base : Nat) (bs : List Byte) : (s.storeBytes base bs).disp = s.disp := rfl
@[simp] theorem storeBytes_key (s : State) (base : Nat) (bs : List Byte) : (s.storeBytes base bs).key = s.key := rfl
@[simp] theorem storeBytes_dirty (s : State) (base : Nat) (bs : List Byte) : (s.storeBytes base bs).dirty = s.dirty := rfl
@[simp] theorem storeBytes_rng (s : State) (base : Nat) (bs : List Byte) : (s.storeBytes base bs).rng = s.rng := rfl
@[simp] theorem storeBytes_fault (s : State) (base : Nat) (bs : List Byte) : (s.storeBytes base bs).fault = s.fault := rfl
@[simp] theorem storeBytes_faultInfo (s : State) (base : Nat) (bs : List Byte) : (s.storeBytes base bs).faultInfo = s.faultInfo := rfl
@[simp] theorem storeBytes_npc (s : State) (base : Nat) (bs : List Byte) : (s.storeBytes base bs).npc = s.npc := rfl
@[simp] theorem storeBytes_getV (s : State) (base : Nat) (bs : List Byte) (q : Reg) : (s.storeBytes base bs).getV q = s.getV q := rfl

/-! ### fault entry (60_exceptions.md R182) -/

@[simp] theorem raise_mem (c : Condition) (info : Nat) (s : State) : (raise c info s).mem = s.mem := rfl
@[simp] theorem raise_v (c : Condition) (info : Nat) (s : State) : (raise c info s).v = s.v := rfl
@[simp] theorem raise_i (c : Condition) (info : Nat) (s : State) : (raise c info s).i = s.i := rfl
@[simp] theorem raise_pc (c : Condition) (info : Nat) (s : State) : (raise c info s).pc = s.pc := rfl
@[simp] theorem raise_sp (c : Condition) (info : Nat) (s : State) : (raise c info s).sp = s.sp := rfl
@[simp] theorem raise_stack (c : Condition) (info : Nat) (s : State) : (raise c info s).stack = s.stack := rfl
@[simp] theorem raise_dt (c : Condition) (info : Nat) (s : State) : (raise c info s).dt = s.dt := rfl
@[simp] theorem raise_st (c : Condition) (info : Nat) (s : State) : (raise c info s).st = s.st := rfl
@[simp] theorem raise_opcode (c : Condition) (info : Nat) (s : State) : (raise c info s).opcode = s.opcode := rfl
@[simp] theorem raise_disp (c : Condition) (info : Nat) (s : State) : (raise c info s).disp = s.disp := rfl
@[simp] theorem raise_key (c : Condition) (info : Nat) (s : State) : (raise c info s).key = s.key := rfl
@[simp] theorem raise_dirty (c : Condition) (info : Nat) (s : State) : (raise c info s).dirty = s.dirty := rfl
@[simp] theorem raise_rng (c : Condition) (info : Nat) (s : State) : (raise c info s).rng = s.rng := rfl
@[simp] theorem raise_fault (c : Condition) (info : Nat) (s : State) : (raise c info s).fault = c.code := rfl
@[simp] theorem raise_faultInfo (c : Condition) (info : Nat) (s : State) : (raise c info s).faultInfo = BitVec.ofNat 16 info := rfl
@[simp] theorem raise_npc (c : Condition) (info : Nat) (s : State) : (raise c info s).npc = s.npc := rfl
@[simp] theorem raise_getV (c : Condition) (info : Nat) (s : State) (q : Reg) : (raise c info s).getV q = s.getV q := rfl

/-! ### OPCODE <- w (10_state.md R31) -/

@[simp] theorem latchOpcode_mem (w : Word) (s : State) : (latchOpcode w s).mem = s.mem := rfl
@[simp] theorem latchOpcode_v (w : Word) (s : State) : (latchOpcode w s).v = s.v := rfl
@[simp] theorem latchOpcode_i (w : Word) (s : State) : (latchOpcode w s).i = s.i := rfl
@[simp] theorem latchOpcode_pc (w : Word) (s : State) : (latchOpcode w s).pc = s.pc := rfl
@[simp] theorem latchOpcode_sp (w : Word) (s : State) : (latchOpcode w s).sp = s.sp := rfl
@[simp] theorem latchOpcode_stack (w : Word) (s : State) : (latchOpcode w s).stack = s.stack := rfl
@[simp] theorem latchOpcode_dt (w : Word) (s : State) : (latchOpcode w s).dt = s.dt := rfl
@[simp] theorem latchOpcode_st (w : Word) (s : State) : (latchOpcode w s).st = s.st := rfl
@[simp] theorem latchOpcode_opcode (w : Word) (s : State) : (latchOpcode w s).opcode = w := rfl
@[simp] theorem latchOpcode_disp (w : Word) (s : State) : (latchOpcode w s).disp = s.disp := rfl
@[simp] theorem latchOpcode_key (w : Word) (s : State) : (latchOpcode w s).key = s.key := rfl
@[simp] theorem latchOpcode_dirty (w : Word) (s : State) : (latchOpcode w s).dirty = s.dirty := rfl
@[simp] theorem latchOpcode_rng (w : Word) (s : State) : (latchOpcode w s).rng = s.rng := rfl
@[simp] theorem latchOpcode_fault (w : Word) (s : State) : (latchOpcode w s).fault = s.fault := rfl
@[simp] theorem latchOpcode_faultInfo (w : Word) (s : State) : (latchOpcode w s).faultInfo = s.faultInfo := rfl
@[simp] theorem latchOpcode_npc (w : Word) (s : State) : (latchOpcode w s).npc = s.npc := rfl
@[simp] theorem latchOpcode_getV (w : Word) (s : State) (q : Reg) : (latchOpcode w s).getV q = s.getV q := rfl

/-! ### PC <- npc (40_control_flow.md R91) -/

@[simp] theorem advance_mem (s : State) : (advance s).mem = s.mem := rfl
@[simp] theorem advance_v (s : State) : (advance s).v = s.v := rfl
@[simp] theorem advance_i (s : State) : (advance s).i = s.i := rfl
@[simp] theorem advance_pc (s : State) : (advance s).pc = s.npc := rfl
@[simp] theorem advance_sp (s : State) : (advance s).sp = s.sp := rfl
@[simp] theorem advance_stack (s : State) : (advance s).stack = s.stack := rfl
@[simp] theorem advance_dt (s : State) : (advance s).dt = s.dt := rfl
@[simp] theorem advance_st (s : State) : (advance s).st = s.st := rfl
@[simp] theorem advance_opcode (s : State) : (advance s).opcode = s.opcode := rfl
@[simp] theorem advance_disp (s : State) : (advance s).disp = s.disp := rfl
@[simp] theorem advance_key (s : State) : (advance s).key = s.key := rfl
@[simp] theorem advance_dirty (s : State) : (advance s).dirty = s.dirty := rfl
@[simp] theorem advance_rng (s : State) : (advance s).rng = s.rng := rfl
@[simp] theorem advance_fault (s : State) : (advance s).fault = s.fault := rfl
@[simp] theorem advance_faultInfo (s : State) : (advance s).faultInfo = s.faultInfo := rfl
@[simp] theorem advance_getV (s : State) (q : Reg) : (advance s).getV q = s.getV q := rfl

/-! ### a skip (40_control_flow.md R95) -/

@[simp] theorem skipIf_mem (c : Bool) (s : State) : (skipIf c s).mem = s.mem := rfl
@[simp] theorem skipIf_v (c : Bool) (s : State) : (skipIf c s).v = s.v := rfl
@[simp] theorem skipIf_i (c : Bool) (s : State) : (skipIf c s).i = s.i := rfl
@[simp] theorem skipIf_pc (c : Bool) (s : State) : (skipIf c s).pc = if c then s.npc + 2 else s.npc := rfl
@[simp] theorem skipIf_sp (c : Bool) (s : State) : (skipIf c s).sp = s.sp := rfl
@[simp] theorem skipIf_stack (c : Bool) (s : State) : (skipIf c s).stack = s.stack := rfl
@[simp] theorem skipIf_dt (c : Bool) (s : State) : (skipIf c s).dt = s.dt := rfl
@[simp] theorem skipIf_st (c : Bool) (s : State) : (skipIf c s).st = s.st := rfl
@[simp] theorem skipIf_opcode (c : Bool) (s : State) : (skipIf c s).opcode = s.opcode := rfl
@[simp] theorem skipIf_disp (c : Bool) (s : State) : (skipIf c s).disp = s.disp := rfl
@[simp] theorem skipIf_key (c : Bool) (s : State) : (skipIf c s).key = s.key := rfl
@[simp] theorem skipIf_dirty (c : Bool) (s : State) : (skipIf c s).dirty = s.dirty := rfl
@[simp] theorem skipIf_rng (c : Bool) (s : State) : (skipIf c s).rng = s.rng := rfl
@[simp] theorem skipIf_fault (c : Bool) (s : State) : (skipIf c s).fault = s.fault := rfl
@[simp] theorem skipIf_faultInfo (c : Bool) (s : State) : (skipIf c s).faultInfo = s.faultInfo := rfl
@[simp] theorem skipIf_getV (c : Bool) (s : State) (q : Reg) : (skipIf c s).getV q = s.getV q := rfl

/-! ### a push (40_control_flow.md R94) -/

@[simp] theorem push_mem (a : Word) (s : State) : (push a s).mem = s.mem := rfl
@[simp] theorem push_v (a : Word) (s : State) : (push a s).v = s.v := rfl
@[simp] theorem push_i (a : Word) (s : State) : (push a s).i = s.i := rfl
@[simp] theorem push_pc (a : Word) (s : State) : (push a s).pc = s.pc := rfl
@[simp] theorem push_sp (a : Word) (s : State) : (push a s).sp = s.sp + 1 := rfl
@[simp] theorem push_stack (a : Word) (s : State) : (push a s).stack = s.stack.setIfInBounds s.sp.toNat a := rfl
@[simp] theorem push_dt (a : Word) (s : State) : (push a s).dt = s.dt := rfl
@[simp] theorem push_st (a : Word) (s : State) : (push a s).st = s.st := rfl
@[simp] theorem push_opcode (a : Word) (s : State) : (push a s).opcode = s.opcode := rfl
@[simp] theorem push_disp (a : Word) (s : State) : (push a s).disp = s.disp := rfl
@[simp] theorem push_key (a : Word) (s : State) : (push a s).key = s.key := rfl
@[simp] theorem push_dirty (a : Word) (s : State) : (push a s).dirty = s.dirty := rfl
@[simp] theorem push_rng (a : Word) (s : State) : (push a s).rng = s.rng := rfl
@[simp] theorem push_fault (a : Word) (s : State) : (push a s).fault = s.fault := rfl
@[simp] theorem push_faultInfo (a : Word) (s : State) : (push a s).faultInfo = s.faultInfo := rfl
@[simp] theorem push_npc (a : Word) (s : State) : (push a s).npc = s.npc := rfl
@[simp] theorem push_getV (a : Word) (s : State) (q : Reg) : (push a s).getV q = s.getV q := rfl

/-! ### one draw used up (10_state.md R35) -/

@[simp] theorem countDraw_mem (s : State) : (countDraw s).mem = s.mem := rfl
@[simp] theorem countDraw_v (s : State) : (countDraw s).v = s.v := rfl
@[simp] theorem countDraw_i (s : State) : (countDraw s).i = s.i := rfl
@[simp] theorem countDraw_pc (s : State) : (countDraw s).pc = s.pc := rfl
@[simp] theorem countDraw_sp (s : State) : (countDraw s).sp = s.sp := rfl
@[simp] theorem countDraw_stack (s : State) : (countDraw s).stack = s.stack := rfl
@[simp] theorem countDraw_dt (s : State) : (countDraw s).dt = s.dt := rfl
@[simp] theorem countDraw_st (s : State) : (countDraw s).st = s.st := rfl
@[simp] theorem countDraw_opcode (s : State) : (countDraw s).opcode = s.opcode := rfl
@[simp] theorem countDraw_disp (s : State) : (countDraw s).disp = s.disp := rfl
@[simp] theorem countDraw_key (s : State) : (countDraw s).key = s.key := rfl
@[simp] theorem countDraw_dirty (s : State) : (countDraw s).dirty = s.dirty := rfl
@[simp] theorem countDraw_rng (s : State) : (countDraw s).rng = { s.rng with drawn := s.rng.drawn + 1 } := rfl
@[simp] theorem countDraw_fault (s : State) : (countDraw s).fault = s.fault := rfl
@[simp] theorem countDraw_faultInfo (s : State) : (countDraw s).faultInfo = s.faultInfo := rfl
@[simp] theorem countDraw_npc (s : State) : (countDraw s).npc = s.npc := rfl
@[simp] theorem countDraw_getV (s : State) (q : Reg) : (countDraw s).getV q = s.getV q := rfl

/-! ### VF <- flag (10_state.md R25) -/

@[simp] theorem setFlag_mem (c : Bool) (s : State) : (setFlag c s).mem = s.mem := rfl
@[simp] theorem setFlag_v (c : Bool) (s : State) : (setFlag c s).v = s.v.set 15 (flagByte c) := rfl
@[simp] theorem setFlag_i (c : Bool) (s : State) : (setFlag c s).i = s.i := rfl
@[simp] theorem setFlag_pc (c : Bool) (s : State) : (setFlag c s).pc = s.pc := rfl
@[simp] theorem setFlag_sp (c : Bool) (s : State) : (setFlag c s).sp = s.sp := rfl
@[simp] theorem setFlag_stack (c : Bool) (s : State) : (setFlag c s).stack = s.stack := rfl
@[simp] theorem setFlag_dt (c : Bool) (s : State) : (setFlag c s).dt = s.dt := rfl
@[simp] theorem setFlag_st (c : Bool) (s : State) : (setFlag c s).st = s.st := rfl
@[simp] theorem setFlag_opcode (c : Bool) (s : State) : (setFlag c s).opcode = s.opcode := rfl
@[simp] theorem setFlag_disp (c : Bool) (s : State) : (setFlag c s).disp = s.disp := rfl
@[simp] theorem setFlag_key (c : Bool) (s : State) : (setFlag c s).key = s.key := rfl
@[simp] theorem setFlag_dirty (c : Bool) (s : State) : (setFlag c s).dirty = s.dirty := rfl
@[simp] theorem setFlag_rng (c : Bool) (s : State) : (setFlag c s).rng = s.rng := rfl
@[simp] theorem setFlag_fault (c : Bool) (s : State) : (setFlag c s).fault = s.fault := rfl
@[simp] theorem setFlag_faultInfo (c : Bool) (s : State) : (setFlag c s).faultInfo = s.faultInfo := rfl
@[simp] theorem setFlag_npc (c : Bool) (s : State) : (setFlag c s).npc = s.npc := rfl

/-! ### result, then flag (42_alu.md R120) -/

@[simp] theorem writeResultAndFlag_mem (x : Reg) (b : Byte) (c : Bool) (s : State) : (writeResultAndFlag x b c s).mem = s.mem := rfl
@[simp] theorem writeResultAndFlag_v (x : Reg) (b : Byte) (c : Bool) (s : State) : (writeResultAndFlag x b c s).v = (s.v.set x.val b).set 15 (flagByte c) := rfl
@[simp] theorem writeResultAndFlag_i (x : Reg) (b : Byte) (c : Bool) (s : State) : (writeResultAndFlag x b c s).i = s.i := rfl
@[simp] theorem writeResultAndFlag_pc (x : Reg) (b : Byte) (c : Bool) (s : State) : (writeResultAndFlag x b c s).pc = s.pc := rfl
@[simp] theorem writeResultAndFlag_sp (x : Reg) (b : Byte) (c : Bool) (s : State) : (writeResultAndFlag x b c s).sp = s.sp := rfl
@[simp] theorem writeResultAndFlag_stack (x : Reg) (b : Byte) (c : Bool) (s : State) : (writeResultAndFlag x b c s).stack = s.stack := rfl
@[simp] theorem writeResultAndFlag_dt (x : Reg) (b : Byte) (c : Bool) (s : State) : (writeResultAndFlag x b c s).dt = s.dt := rfl
@[simp] theorem writeResultAndFlag_st (x : Reg) (b : Byte) (c : Bool) (s : State) : (writeResultAndFlag x b c s).st = s.st := rfl
@[simp] theorem writeResultAndFlag_opcode (x : Reg) (b : Byte) (c : Bool) (s : State) : (writeResultAndFlag x b c s).opcode = s.opcode := rfl
@[simp] theorem writeResultAndFlag_disp (x : Reg) (b : Byte) (c : Bool) (s : State) : (writeResultAndFlag x b c s).disp = s.disp := rfl
@[simp] theorem writeResultAndFlag_key (x : Reg) (b : Byte) (c : Bool) (s : State) : (writeResultAndFlag x b c s).key = s.key := rfl
@[simp] theorem writeResultAndFlag_dirty (x : Reg) (b : Byte) (c : Bool) (s : State) : (writeResultAndFlag x b c s).dirty = s.dirty := rfl
@[simp] theorem writeResultAndFlag_rng (x : Reg) (b : Byte) (c : Bool) (s : State) : (writeResultAndFlag x b c s).rng = s.rng := rfl
@[simp] theorem writeResultAndFlag_fault (x : Reg) (b : Byte) (c : Bool) (s : State) : (writeResultAndFlag x b c s).fault = s.fault := rfl
@[simp] theorem writeResultAndFlag_faultInfo (x : Reg) (b : Byte) (c : Bool) (s : State) : (writeResultAndFlag x b c s).faultInfo = s.faultInfo := rfl
@[simp] theorem writeResultAndFlag_npc (x : Reg) (b : Byte) (c : Bool) (s : State) : (writeResultAndFlag x b c s).npc = s.npc := rfl

end Sys2Proof.Machine
end

