-- ==== Sys2Proof/Laws/Display.lean ====
section
/-! SUPPORT. The display (10_state.md R32) and the blitter (43_display.md R141, R142): cell reads after cell writes, and
what drawing bytes one under the other does to each cell and to the collision. -/

namespace Sys2Proof.Machine

theorem get_eq (d : Display) {x y : Nat} (hx : x < 64) (hy : y < 32) : d.get x y = (d.rows[y]'hy)[x]'hx := by
  simp [Display.get, hx, hy]

theorem get_outside (d : Display) {x y : Nat} (h : ¬ (x < 64 ∧ y < 32)) : d.get x y = false := by
  simp [Display.get, h]

@[simp] theorem get_blank (x y : Nat) : Display.blank.get x y = false := by
  simp [Display.get, Display.blank]

theorem get_set (d : Display) {x y : Nat} (hx : x < 64) (hy : y < 32) (b : Bool) (x' y' : Nat) :
    (d.set x y b).get x' y' = if x' = x ∧ y' = y then b else d.get x' y' := by
  simp only [Display.set, hx, hy, and_self, dif_pos]
  by_cases h : x' < 64 ∧ y' < 32
  · obtain ⟨hx', hy'⟩ := h
    rw [get_eq _ hx' hy', get_eq _ hx' hy']
    by_cases h2 : y = y'
    · subst h2
      simp only [Vector.getElem_set_self]
      by_cases h1 : x = x'
      · subst h1; simp
      · rw [Vector.getElem_set_ne _ _ h1, if_neg (fun h => h1 h.1.symm)]
    · rw [Vector.getElem_set_ne _ _ h2, if_neg (fun h => h2 h.2.symm)]
  · rw [get_outside _ h, get_outside _ h, if_neg]
    rintro ⟨rfl, rfl⟩
    exact h ⟨hx, hy⟩

/-- Displays with the same cells are the same data. -/
theorem display_ext {d d' : Display} (h : ∀ x < 64, ∀ y < 32, d.get x y = d'.get x y) : d = d' := by
  obtain ⟨r⟩ := d
  obtain ⟨r'⟩ := d'
  congr 1
  ext y hy x hx
  have := h x hx y hy
  rw [get_eq _ hx hy, get_eq _ hx hy] at this
  simpa using this

/-! ### Toggling one pixel -/

theorem toggle_inside (c : Canvas) {px py : Nat} (hx : px < 64) (hy : py < 32) :
    c.toggle px py = ⟨c.disp.set px py (!c.disp.get px py), c.hit || c.disp.get px py⟩ := by
  have h : px ≤ 63 ∧ py ≤ 31 := by omega
  simp only [Canvas.toggle, pixelCell, Config.drawEdgePolicy, if_pos h]

theorem toggle_clipped (c : Canvas) {px py : Nat} (h : ¬ (px < 64 ∧ py < 32)) : c.toggle px py = c := by
  have h : ¬ (px ≤ 63 ∧ py ≤ 31) := by omega
  simp only [Canvas.toggle, pixelCell, Config.drawEdgePolicy, if_neg h]

/-- A toggle flips the cell it falls on, if that is inside the grid, and no other. -/
theorem get_toggle (c : Canvas) (px py x y : Nat) (hx : x < 64) (hy : y < 32) :
    (c.toggle px py).disp.get x y = (c.disp.get x y ^^ decide (px = x ∧ py = y)) := by
  by_cases h : px < 64 ∧ py < 32
  · rw [toggle_inside c h.1 h.2, get_set _ h.1 h.2]
    by_cases he : x = px ∧ y = py
    · obtain ⟨rfl, rfl⟩ := he
      simp
    · have he' : ¬ (px = x ∧ py = y) := fun e => he ⟨e.1.symm, e.2.symm⟩
      simp [he, he']
  · rw [toggle_clipped c h]
    have he : ¬ (px = x ∧ py = y) := by rintro ⟨rfl, rfl⟩; exact h ⟨hx, hy⟩
    simp [he]

/-- A toggle collides when the cell it falls on, inside the grid, was on. -/
theorem hit_toggle (c : Canvas) (px py : Nat) : (c.toggle px py).hit = (c.hit || c.disp.get px py) := by
  by_cases h : px < 64 ∧ py < 32
  · rw [toggle_inside c h.1 h.2]
  · rw [toggle_clipped c h, get_outside _ h, Bool.or_false]

/-! ### One sprite byte -/

/-- The pixel of byte `b`, drawn from column x0 in row py, that falls on cell (x, y), for columns col to col + left - 1. -/
def byteCovers (b : Byte) (x0 py col left x y : Nat) : Bool :=
  decide (y = py ∧ x0 + col ≤ x ∧ x < x0 + col + left) && b.getLsbD (7 - (x - x0))

theorem byteCovers_succ (b : Byte) (x0 py col left x y : Nat) :
    byteCovers b x0 py col (left + 1) x y =
      ((b.getLsbD (7 - col) && decide (x0 + col = x ∧ py = y)) ^^ byteCovers b x0 py (col + 1) left x y) := by
  unfold byteCovers
  by_cases h1 : x0 + col = x ∧ py = y
  · obtain ⟨rfl, rfl⟩ := h1
    have h2 : ¬ (py = py ∧ x0 + (col + 1) ≤ x0 + col ∧ x0 + col < x0 + (col + 1) + left) := by omega
    have h3 : py = py ∧ x0 + col ≤ x0 + col ∧ x0 + col < x0 + col + (left + 1) := by omega
    rw [decide_eq_false h2, decide_eq_true h3, Bool.false_and, Bool.xor_false, Bool.true_and, Nat.add_sub_cancel_left]
    simp
  · have h2 : (y = py ∧ x0 + col ≤ x ∧ x < x0 + col + (left + 1)) ↔
        (y = py ∧ x0 + (col + 1) ≤ x ∧ x < x0 + (col + 1) + left) := by omega
    simp only [h1, h2, decide_false, Bool.and_false, Bool.false_xor]

/-- Drawing a byte toggles exactly the cells its set bits cover. -/
theorem get_drawBits (b : Byte) (x0 py left : Nat) (c : Canvas) (col x y : Nat) (hx : x < 64) (hy : y < 32) :
    (c.drawBits x0 py b col left).disp.get x y = (c.disp.get x y ^^ byteCovers b x0 py col left x y) := by
  induction left generalizing c col with
  | zero =>
    have : ¬ (y = py ∧ x0 + col ≤ x ∧ x < x0 + col + 0) := by omega
    rw [Canvas.drawBits, byteCovers, decide_eq_false this, Bool.false_and, Bool.xor_false]
  | succ left ih =>
    rw [Canvas.drawBits, ih, byteCovers_succ]
    cases h : b.getLsbD (7 - col)
    · simp
    · simp only [if_true, get_toggle c _ _ x y hx hy, Bool.true_and, Bool.xor_assoc]

/-- Drawing a byte collides exactly when one of its set bits covers a cell that was on. -/
theorem hit_drawBits (b : Byte) (x0 py left : Nat) (c : Canvas) (col : Nat) :
    (c.drawBits x0 py b col left).hit = true ↔
      c.hit = true ∨ ∃ x < 64, ∃ y < 32, byteCovers b x0 py col left x y = true ∧ c.disp.get x y = true := by
  induction left generalizing c col with
  | zero =>
    have h : ∀ x y, byteCovers b x0 py col 0 x y = false := by
      intro x y
      have : ¬ (y = py ∧ x0 + col ≤ x ∧ x < x0 + col + 0) := by omega
      rw [byteCovers, decide_eq_false this, Bool.false_and]
    simp [Canvas.drawBits, h]
  | succ left ih =>
    rw [Canvas.drawBits, ih]
    simp only [byteCovers_succ]
    cases hb : b.getLsbD (7 - col)
    · simp
    · simp only [if_true, hit_toggle, Bool.or_eq_true, Bool.true_and, or_assoc]
      refine or_congr_right ?_
      have hdisj : ∀ x y, byteCovers b x0 py (col + 1) left x y = true → ¬ (x0 + col = x ∧ py = y) := by
        intro x y h
        simp only [byteCovers, Bool.and_eq_true, decide_eq_true_eq] at h
        omega
      constructor
      · rintro (h | ⟨x, hx, y, hy, h1, h2⟩)
        · by_cases hin : x0 + col < 64 ∧ py < 32
          · refine ⟨x0 + col, hin.1, py, hin.2, ?_, h⟩
            cases h' : byteCovers b x0 py (col + 1) left (x0 + col) py
            · simp
            · exact absurd ⟨rfl, rfl⟩ (hdisj _ _ h')
          · rw [get_outside _ hin] at h
            cases h
        · refine ⟨x, hx, y, hy, by simp [h1, hdisj x y h1], ?_⟩
          rw [get_toggle c _ _ x y hx hy] at h2
          simpa [hdisj x y h1] using h2
      · rintro ⟨x, hx, y, hy, h1, h2⟩
        by_cases he : x0 + col = x ∧ py = y
        · obtain ⟨rfl, rfl⟩ := he
          exact .inl h2
        · refine .inr ⟨x, hx, y, hy, by simpa [he] using h1, ?_⟩
          rw [get_toggle c _ _ x y hx hy]
          simpa [he] using h2

/-! ### A whole sprite -/

/-- The pixel of the sprite with these bytes, drawn from column x0 and row py, that falls on cell (x, y). -/
def rowsCover (bs : List Byte) (x0 py x y : Nat) : Bool :=
  decide (py ≤ y ∧ x0 ≤ x ∧ x < x0 + 8) && (bs.getD (y - py) 0).getLsbD (7 - (x - x0))

theorem rowsCover_nil (x0 py x y : Nat) : rowsCover [] x0 py x y = false := by
  simp [rowsCover]

theorem rowsCover_cons (b : Byte) (bs : List Byte) (x0 py x y : Nat) :
    rowsCover (b :: bs) x0 py x y = (byteCovers b x0 py 0 8 x y ^^ rowsCover bs x0 (py + 1) x y) := by
  unfold rowsCover byteCovers
  by_cases h : y = py
  · subst h
    simp
  · by_cases h2 : py + 1 ≤ y
    · obtain ⟨k, rfl⟩ : ∃ k, y = py + 1 + k := ⟨y - (py + 1), by omega⟩
      have h3 : py + 1 + k - py = k + 1 := by omega
      have h4 : py ≤ py + 1 + k := by omega
      simp [h, h3, h4]
    · have h3 : ¬ py ≤ y := by omega
      simp [h, h2, h3]

/-- Drawing a sprite toggles exactly the cells its set bits cover: the display after is the cell-wise XOR of the display
before and the clipped sprite (43_display.md R143 (c)). -/
theorem get_drawRows (bs : List Byte) (c : Canvas) (x0 py x y : Nat) (hx : x < 64) (hy : y < 32) :
    (c.drawRows x0 py bs).disp.get x y = (c.disp.get x y ^^ rowsCover bs x0 py x y) := by
  induction bs generalizing c py with
  | nil => simp [Canvas.drawRows, rowsCover_nil]
  | cons b bs ih => rw [Canvas.drawRows, ih, get_drawBits b x0 py 8 c 0 x y hx hy, rowsCover_cons, Bool.xor_assoc]

/-- Drawing a sprite collides exactly when one of its set bits covers a cell that was on (43_display.md R143 (c)). -/
theorem hit_drawRows (bs : List Byte) (c : Canvas) (x0 py : Nat) :
    (c.drawRows x0 py bs).hit = true ↔
      c.hit = true ∨ ∃ x < 64, ∃ y < 32, rowsCover bs x0 py x y = true ∧ c.disp.get x y = true := by
  induction bs generalizing c py with
  | nil => simp [Canvas.drawRows, rowsCover_nil]
  | cons b bs ih =>
    rw [Canvas.drawRows, ih, hit_drawBits, or_assoc]
    refine or_congr_right ?_
    simp only [rowsCover_cons]
    have hdisj : ∀ x y, byteCovers b x0 py 0 8 x y = true → rowsCover bs x0 (py + 1) x y = false := by
      intro x y h
      simp only [byteCovers, Bool.and_eq_true, decide_eq_true_eq] at h
      have : ¬ (py + 1 ≤ y ∧ x0 ≤ x ∧ x < x0 + 8) := by omega
      rw [rowsCover, decide_eq_false this, Bool.false_and]
    constructor
    · rintro (⟨x, hx, y, hy, h1, h2⟩ | ⟨x, hx, y, hy, h1, h2⟩)
      · exact ⟨x, hx, y, hy, by simp [h1, hdisj x y h1], h2⟩
      · have h3 : byteCovers b x0 py 0 8 x y = false := by
          cases h3 : byteCovers b x0 py 0 8 x y
          · rfl
          · rw [hdisj x y h3] at h1
            cases h1
        rw [get_drawBits b x0 py 8 c 0 x y hx hy, h3, Bool.xor_false] at h2
        exact ⟨x, hx, y, hy, by simp [h1, h3], h2⟩
    · rintro ⟨x, hx, y, hy, h1, h2⟩
      cases h3 : byteCovers b x0 py 0 8 x y
      · rw [h3, Bool.false_xor] at h1
        refine .inr ⟨x, hx, y, hy, h1, ?_⟩
        rw [get_drawBits b x0 py 8 c 0 x y hx hy, h3, Bool.xor_false]
        exact h2
      · exact .inl ⟨x, hx, y, hy, h3, h2⟩

end Sys2Proof.Machine
end

