-- ==== Sys2Proof/Laws/Events.lean ====
section
/-! SUPPORT. The events that can go two ways, one lemma for each way, and a run one event at a time. -/

namespace Sys2Proof.Machine

theorem stepEvent_next {s t : State} (h : step s = .next t) : stepEvent s = .next (t, .done) := by
  rw [stepEvent, h]

theorem loadEvent_refused {image : List Byte} (h : image.length > 3584) (seed : Nat) (s : State) :
    loadEvent seed image s = (s, .loadRefused 1) := if_pos h

theorem loadEvent_loaded {image : List Byte} (h : image.length ≤ 3584) (seed : Nat) (s : State) :
    loadEvent seed image s = (loadImage seed image s, .loaded) := if_neg (Nat.not_lt.mpr h)

theorem restoreEvent_legal {p : Snapshot} (h : p.legal) (s : State) :
    restoreEvent p s = .next (restoreFrom p s, .done) := if_pos h

theorem restoreEvent_refused {p : Snapshot} (h : ¬ p.legal) (s : State) :
    restoreEvent p s = .refused .restoreOfNoSnapshot := if_neg h

/-- An event that answers takes the run on from the state it answers. -/
theorem runEvents_next {e : Event} {s t : State} {r : Reply} (h : event e s = .next (t, r)) (es : List Event) :
    runEvents (e :: es) s = runEvents es t := by
  rw [runEvents, h]

end Sys2Proof.Machine
end

