-- ==== Sys2Proof/Laws/Keys.lean ====
section
/-! SUPPORT. The keys (44_keypad.md R150 to R153): which key a value names, and what the scan finds. -/

namespace Sys2Proof.Machine

theorem keyNumber_eq (b : Byte) : keyNumber b = if b.toNat > 15 then none else some b.toNat := rfl

/-- The scan finds the least pressed key of its range (44_keypad.md R152). -/
theorem firstKey_eq_some (s : State) (k left k0 : Nat) :
    firstKey s k left = some k0 ↔
      k ≤ k0 ∧ k0 < k + left ∧ keyPressed s k0 = true ∧ ∀ j, k ≤ j → j < k0 → keyPressed s j = false := by
  induction left generalizing k with
  | zero => simp only [firstKey, reduceCtorEq, false_iff]; omega
  | succ left ih =>
    rw [firstKey]
    cases h : keyPressed s k
    · simp only [Bool.false_eq_true, if_false, ih]
      constructor
      · rintro ⟨h1, h2, h3, h4⟩
        refine ⟨by omega, by omega, h3, fun j hj hj' => ?_⟩
        rcases Nat.eq_or_lt_of_le hj with rfl | hj
        · exact h
        · exact h4 j hj hj'
      · rintro ⟨h1, h2, h3, h4⟩
        have : k ≠ k0 := by rintro rfl; rw [h] at h3; cases h3
        exact ⟨by omega, by omega, h3, fun j hj hj' => h4 j (by omega) hj'⟩
    · simp only [if_true, Option.some.injEq]
      constructor
      · rintro rfl
        exact ⟨Nat.le_refl _, by omega, h, fun j hj hj' => by omega⟩
      · rintro ⟨h1, -, -, h4⟩
        rcases Nat.eq_or_lt_of_le h1 with e | hlt
        · exact e
        · rw [h4 k (Nat.le_refl _) hlt] at h
          cases h

/-- The scan finds nothing exactly when no key of its range is pressed. -/
theorem firstKey_eq_none (s : State) (k left : Nat) :
    firstKey s k left = none ↔ ∀ j, k ≤ j → j < k + left → keyPressed s j = false := by
  induction left generalizing k with
  | zero => simp only [firstKey, true_iff]; omega
  | succ left ih =>
    rw [firstKey]
    cases h : keyPressed s k
    · simp only [Bool.false_eq_true, if_false, ih]
      constructor
      · intro h1 j hj hj'
        rcases Nat.eq_or_lt_of_le hj with rfl | hj
        · exact h
        · exact h1 j hj (by omega)
      · exact fun h1 j hj hj' => h1 j (by omega) (by omega)
    · simp only [if_true, reduceCtorEq, false_iff]
      intro h1
      rw [h1 k (Nat.le_refl _) (by omega)] at h
      cases h

end Sys2Proof.Machine
end

