-- ==== Sys2Proof/Laws/Memory.lean ====
section
/-! SUPPORT. Memory (20_memory.md): a read after a write, and that every operation keeps the canonical form; the range
check. -/

namespace Sys2Proof.Machine

/-! ### Reading after writing -/

theorem readCells_writeCells_other (l : List Host.Cell) {a a' : Nat} (b : Byte) (h : a' ≠ a) :
    Memory.readCells (Memory.writeCells l a b) a' = Memory.readCells l a' := by
  induction l with
  | nil => by_cases hb : b = Memory.unlisted a <;> simp [Memory.writeCells, Memory.readCells, hb, h.symm]
  | cons c l ih =>
    obtain ⟨k, c⟩ := c
    simp only [Memory.writeCells]
    split
    · split <;> simp [Memory.readCells, h.symm]
    · split
      · next hk => subst hk; split <;> simp [Memory.readCells, h.symm]
      · simp [Memory.readCells, ih]

/-- A write leaves every other address alone. -/
theorem read_write_other (m : Memory) {a a' : Nat} (b : Byte) (h : a' ≠ a) : (m.write a b).read a' = m.read a' :=
  readCells_writeCells_other m.cells b h

theorem readCells_eq_unlisted (l : List Host.Cell) (a : Nat) (h : ∀ c ∈ l, c.1 ≠ a) :
    Memory.readCells l a = Memory.unlisted a := by
  induction l with
  | nil => rfl
  | cons c l ih =>
    rw [Memory.readCells, if_neg (h c (by simp)), ih fun d hd => h d (by simp [hd])]

theorem readCells_writeCells_self (l : List Host.Cell) (a : Nat) (b : Byte)
    (hl : l.Pairwise fun c d => c.1 < d.1) : Memory.readCells (Memory.writeCells l a b) a = b := by
  induction l with
  | nil => by_cases hb : b = Memory.unlisted a <;> simp [Memory.writeCells, Memory.readCells, hb]
  | cons c l ih =>
    obtain ⟨k, c⟩ := c
    obtain ⟨hk, hl⟩ := List.pairwise_cons.1 hl
    simp only [Memory.writeCells]
    split
    · next hlt =>
      split
      · next hb =>
        rw [readCells_eq_unlisted _ _ ?_, hb]
        intro d hd
        rcases List.mem_cons.1 hd with rfl | hd
        · exact (Nat.ne_of_gt hlt)
        · have := hk d hd
          simp only at this
          omega
      · simp [Memory.readCells]
    · split
      · next hak =>
        subst hak
        split
        · next hb =>
          rw [readCells_eq_unlisted _ _ fun d hd => Nat.ne_of_gt (hk d hd), hb]
        · simp [Memory.readCells]
      · next hne => simp [Memory.readCells, Ne.symm hne, ih hl]

/-- A read after a write to the same address gives the byte written. -/
theorem read_write_self {m : Memory} (hm : m.wf) (a : Nat) (b : Byte) : (m.write a b).read a = b :=
  readCells_writeCells_self m.cells a b hm.1

/-! ### The canonical form -/

theorem mem_writeCells {l : List Host.Cell} {a : Nat} {b : Byte} {c : Host.Cell}
    (h : c ∈ Memory.writeCells l a b) : c ∈ l ∨ (c = (a, b) ∧ b ≠ Memory.unlisted a) := by
  induction l with
  | nil =>
    simp only [Memory.writeCells] at h
    split at h
    · simp at h
    · next hb => exact .inr ⟨by simpa using h, hb⟩
  | cons d l ih =>
    obtain ⟨k, d⟩ := d
    simp only [Memory.writeCells] at h
    split at h
    · split at h
      · exact .inl h
      · next hb =>
        rcases List.mem_cons.1 h with rfl | h
        · exact .inr ⟨rfl, hb⟩
        · exact .inl h
    · split at h
      · split at h
        · exact .inl (List.mem_cons_of_mem _ h)
        · next hb =>
          rcases List.mem_cons.1 h with rfl | h
          · exact .inr ⟨rfl, hb⟩
          · exact .inl (List.mem_cons_of_mem _ h)
      · rcases List.mem_cons.1 h with rfl | h
        · exact .inl (by simp)
        · rcases ih h with h | h
          · exact .inl (List.mem_cons_of_mem _ h)
          · exact .inr h

theorem pairwise_writeCells {l : List Host.Cell} (a : Nat) (b : Byte) (hl : l.Pairwise fun c d => c.1 < d.1) :
    (Memory.writeCells l a b).Pairwise fun c d => c.1 < d.1 := by
  induction l with
  | nil => simp only [Memory.writeCells]; split <;> simp
  | cons c l ih =>
    obtain ⟨k, c⟩ := c
    obtain ⟨hk, hl'⟩ := List.pairwise_cons.1 hl
    simp only [Memory.writeCells]
    split
    · next hlt =>
      split
      · exact hl
      · refine List.pairwise_cons.2 ⟨fun d hd => ?_, hl⟩
        rcases List.mem_cons.1 hd with rfl | hd
        · exact hlt
        · exact Nat.lt_trans hlt (hk d hd)
    · split
      · next hak =>
        subst hak
        split
        · exact hl'
        · exact List.pairwise_cons.2 ⟨hk, hl'⟩
      · refine List.pairwise_cons.2 ⟨fun d hd => ?_, ih hl'⟩
        rcases mem_writeCells hd with hd | ⟨rfl, -⟩
        · exact hk d hd
        · simp only
          omega

/-- A write inside the address space keeps the canonical form. -/
theorem write_wf {m : Memory} (hm : m.wf) {a : Nat} (b : Byte) (ha : a < 4096) : (m.write a b).wf := by
  refine ⟨pairwise_writeCells a b hm.1, fun c hc => ?_⟩
  rcases mem_writeCells hc with hc | ⟨rfl, hb⟩
  · exact hm.2 c hc
  · exact ⟨ha, hb⟩

/-- Memory with nothing listed is canonical: it is the memory of `State.reset`. -/
theorem empty_wf : Memory.wf ⟨[]⟩ := ⟨List.Pairwise.nil, fun _ h => nomatch h⟩

/-! ### Several bytes -/

@[simp] theorem cellAddress_eq (a : Nat) : cellAddress a = a := rfl

@[simp] theorem length_readBytes (m : Memory) (base n : Nat) : (readBytes m base n).length = n := by
  induction n generalizing base with
  | zero => rfl
  | succ n ih => simp [readBytes, ih]

/-- Byte k of a block read is the byte at base + k. -/
theorem readBytes_getElem (m : Memory) (base n k : Nat) (h : k < (readBytes m base n).length) :
    (readBytes m base n)[k] = m.read (base + k) := by
  induction n generalizing base k with
  | zero => simp at h
  | succ n ih =>
    cases k with
    | zero => simp [readBytes]
    | succ k =>
      simp only [readBytes, List.getElem_cons_succ]
      rw [ih]
      congr 1
      omega

/-- A block write leaves every address outside the block alone. -/
theorem read_writeBytes_outside (m : Memory) (base a : Nat) (bs : List Byte)
    (h : ¬ (base ≤ a ∧ a < base + bs.length)) : (writeBytes m base bs).read a = m.read a := by
  induction bs generalizing m base with
  | nil => rfl
  | cons b bs ih =>
    simp only [List.length_cons] at h
    rw [writeBytes, ih _ _ (by omega), cellAddress_eq, read_write_other]
    rintro rfl
    exact h ⟨Nat.le_refl _, by omega⟩

/-- A block write inside the address space keeps the canonical form. -/
theorem writeBytes_wf {m : Memory} (hm : m.wf) (base : Nat) (bs : List Byte) (h : base + bs.length ≤ 4096) :
    (writeBytes m base bs).wf := by
  induction bs generalizing m base with
  | nil => exact hm
  | cons b bs ih =>
    simp only [List.length_cons] at h
    exact ih (write_wf hm b (by rw [cellAddress_eq]; omega)) (base + 1) (by omega)

/-- After a block write inside the address space, byte base + k reads as byte k of the block. -/
theorem read_writeBytes_inside {m : Memory} (hm : m.wf) (base k : Nat) (bs : List Byte)
    (hb : base + bs.length ≤ 4096) (h : k < bs.length) : (writeBytes m base bs).read (base + k) = bs[k] := by
  induction bs generalizing m base k with
  | nil => simp at h
  | cons b bs ih =>
    simp only [List.length_cons] at hb h
    rw [writeBytes, cellAddress_eq]
    cases k with
    | zero =>
      rw [read_writeBytes_outside _ _ _ _ (by omega), Nat.add_zero, read_write_self hm, List.getElem_cons_zero]
    | succ k =>
      rw [show base + (k + 1) = (base + 1) + k by omega,
        ih (write_wf hm b (by omega)) (base + 1) k (by omega) (by omega), List.getElem_cons_succ]

/-! ### The range check (20_memory.md R53) -/

theorem outOfRange_eq (base len : Nat) :
    outOfRange base len = if 1 ≤ len ∧ base + len - 1 > 0xFFF then some (max base 0x1000) else none := rfl

theorem withRange_outside {base len : Nat} (h1 : 1 ≤ len) (h2 : base + len - 1 > 0xFFF) (s : State)
    (k : Host.Outcome State Fault Refusal) :
    withRange base len s k = .next (raise .addressOutOfRange (max base 0x1000) s) := by
  simp only [withRange, outOfRange_eq, if_pos (And.intro h1 h2)]

theorem withRange_inside {base len : Nat} (h : len = 0 ∨ base + len - 1 ≤ 0xFFF) (s : State)
    (k : Host.Outcome State Fault Refusal) : withRange base len s k = k := by
  have h' : ¬ (1 ≤ len ∧ base + len - 1 > 0xFFF) := by omega
  simp only [withRange, outOfRange_eq, if_neg h']

/-- All that a range-checked instruction can do. -/
theorem withRange_cases (base len : Nat) (s : State) (k : Host.Outcome State Fault Refusal) :
    (1 ≤ len ∧ base + len - 1 > 0xFFF ∧
        withRange base len s k = .next (raise .addressOutOfRange (max base 0x1000) s)) ∨
      ((len = 0 ∨ base + len - 1 ≤ 0xFFF) ∧ withRange base len s k = k) := by
  by_cases h : 1 ≤ len ∧ base + len - 1 > 0xFFF
  · exact .inl ⟨h.1, h.2, withRange_outside h.1 h.2 s k⟩
  · have h' : len = 0 ∨ base + len - 1 ≤ 0xFFF := by omega
    exact .inr ⟨h', withRange_inside h' s k⟩

/-! ### Fetching (20_memory.md R50) -/

theorem joinBytes_toNat (hi lo : Byte) : (joinBytes hi lo).toNat = hi.toNat * 256 + lo.toNat := by
  have h1 := hi.isLt
  have h2 := lo.isLt
  simp only [joinBytes, BitVec.toNat_ofNat]
  omega

theorem fetchFault_eq (s : State) :
    fetchFault s = if s.pc.toNat > 0xFFE then some (max s.pc.toNat 0x1000) else none := by
  simp only [fetchFault, outOfRange_eq]
  by_cases h : s.pc.toNat > 0xFFE
  · rw [if_pos ⟨by omega, by omega⟩, if_pos h]
  · rw [if_neg (by omega), if_neg h]

theorem fetchWord_toNat (s : State) :
    (fetchWord s).toNat = (s.mem.read s.pc.toNat).toNat * 256 + (s.mem.read (s.pc.toNat + 1)).toNat := by
  rw [fetchWord, joinBytes_toNat, cellAddress_eq, cellAddress_eq]

end Sys2Proof.Machine
end

