-- ==== Sys2Proof/Laws/Exec.lean ====
section
/-! SUPPORT. The meanings that can raise a fault, and the step, as plain case distinctions with the parameters resolved: a
proof splits on these instead of unfolding the operations. -/

namespace Sys2Proof.Machine

theorem withRange_eq (base len : Nat) (s : State) (k : Host.Outcome State Fault Refusal) :
    withRange base len s k =
      if 1 ≤ len ∧ base + len - 1 > 0xFFF then .next (raise .addressOutOfRange (max base 0x1000) s) else k := by
  rcases withRange_cases base len s k with ⟨h1, h2, h3⟩ | ⟨h1, h3⟩
  · rw [h3, if_pos ⟨h1, h2⟩]
  · rw [h3, if_neg (by omega)]

/-- RET (40_control_flow.md R92). -/
theorem execRet_eq (s : State) :
    execRet s =
      if s.sp.toNat = 0 then .next (raise .stackUnderflow s.sp.toNat s)
      else if h : s.sp.toNat ≤ 16 then .next { s with sp := s.sp - 1, pc := s.stack[s.sp.toNat - 1]'(by omega) }
      else .fault .noSuchStackSlot := by
  simp only [execRet, stackEmpty, decide_eq_true_eq, topOfStack]
  split
  · rfl
  · by_cases h : s.sp.toNat ≤ 16
    · rw [Vector.getElem?_eq_getElem (by omega), dif_pos h]
    · rw [Vector.getElem?_eq_none (by omega), dif_neg h]

/-- CALL (40_control_flow.md R94). -/
theorem execCall_eq (nnn : Word) (s : State) :
    execCall nnn s =
      if 16 ≤ s.sp.toNat then .next (raise .stackOverflow s.sp.toNat s)
      else .next { push s.npc s with pc := nnn } := by
  simp only [execCall, stackFull, decide_eq_true_eq, ge_iff_le]

/-- SKP (44_keypad.md R150). -/
theorem execSkp_eq (x : Reg) (s : State) :
    execSkp x s =
      if (s.getV x).toNat > 15 then .next (raise .keyIndexOutOfRange (s.getV x).toNat s)
      else .next (skipIf (s.key.getLsbD (s.getV x).toNat) s) := by
  rw [execSkp, keyNumber_eq]
  by_cases h : (s.getV x).toNat > 15
  · simp only [if_pos h]
  · simp only [if_neg h, keyPressed]

/-- SKNP (44_keypad.md R151). -/
theorem execSknp_eq (x : Reg) (s : State) :
    execSknp x s =
      if (s.getV x).toNat > 15 then .next (raise .keyIndexOutOfRange (s.getV x).toNat s)
      else .next (skipIf (!s.key.getLsbD (s.getV x).toNat) s) := by
  rw [execSknp, keyNumber_eq]
  by_cases h : (s.getV x).toNat > 15
  · simp only [if_pos h]
  · simp only [if_neg h, keyPressed]

/-- LD Vx, K with no key pressed: nothing changes (44_keypad.md R152). -/
theorem execLdVxK_none (x : Reg) {s : State} (h : ∀ k < 16, s.key.getLsbD k = false) :
    execLdVxK x s = .next s := by
  have h' : firstKey s 0 Config.numKeys = none := (firstKey_eq_none s 0 16).2 fun j _ hj => h j (by omega)
  have hpc : s.npc - 2 = s.pc := by simp [State.npc]
  simp only [execLdVxK, h', hpc]

/-- LD Vx, K with keys pressed: the least of them (44_keypad.md R152). -/
theorem execLdVxK_some (x : Reg) {s : State} {k : Nat} (hk : k < 16) (h : s.key.getLsbD k = true)
    (hl : ∀ j < k, s.key.getLsbD j = false) :
    execLdVxK x s = .next (advance (s.setV x (BitVec.ofNat 8 k))) := by
  have h' : firstKey s 0 Config.numKeys = some k :=
    (firstKey_eq_some s 0 16 k).2 ⟨by omega, by omega, h, fun j _ hj => hl j hj⟩
  simp only [execLdVxK, h']

/-- A step, with the fetch check resolved (40_control_flow.md R90). -/
theorem step_eq (s : State) :
    step s =
      if s.fault ≠ 0 then .next s
      else if s.pc.toNat > 0xFFE then .next (raise .addressOutOfRange (max s.pc.toNat 0x1000) s)
      else exec (decodeWord (fetchWord s)) (latchOpcode (fetchWord s) s) := by
  rw [step, fetchFault_eq]
  by_cases h : s.pc.toNat > 0xFFE
  · simp only [if_pos h]
  · simp only [if_neg h]

end Sys2Proof.Machine
end

