-- ==== Sys2Proof/Laws/PerInstr.lean ====
section
/-! SUPPORT. What is proved of every instruction as syntax, one lemma per constructor. Family EncodedRow: the word an
instruction encodes to has the selector bits of its row of the opcode map (30_encoding.md R80). -/

namespace Sys2Proof.Laws.EncodedRow

/-- The selector of a row: the top nibble, and the low nibble or low byte where the family has a second level
(30_encoding.md R74 to R78). -/
structure Selector where
  op     : Nat
  nibble : Option Nat
  byte   : Option Nat
  deriving DecidableEq, Repr

/-- The selector bits of a word, as far as a row fixes them. -/
def Selector.selects (r : Selector) (w : Word) : Prop :=
  w.toNat / 4096 = r.op ∧ (∀ n, r.nibble = some n → w.toNat % 16 = n) ∧ ∀ b, r.byte = some b → w.toNat % 256 = b

/-- The row of each instruction in the opcode map (30_encoding.md R80). -/
def row : Instr → Selector
  | .cls => ⟨0x0, some 0x0, none⟩
  | .ret => ⟨0x0, some 0xE, none⟩
  | .jp _ => ⟨0x1, none, none⟩
  | .call _ => ⟨0x2, none, none⟩
  | .seImm _ _ => ⟨0x3, none, none⟩
  | .sneImm _ _ => ⟨0x4, none, none⟩
  | .seReg _ _ => ⟨0x5, none, none⟩
  | .ldImm _ _ => ⟨0x6, none, none⟩
  | .addImm _ _ => ⟨0x7, none, none⟩
  | .ldReg _ _ => ⟨0x8, some 0x0, none⟩
  | .orReg _ _ => ⟨0x8, some 0x1, none⟩
  | .andReg _ _ => ⟨0x8, some 0x2, none⟩
  | .xorReg _ _ => ⟨0x8, some 0x3, none⟩
  | .addReg _ _ => ⟨0x8, some 0x4, none⟩
  | .subReg _ _ => ⟨0x8, some 0x5, none⟩
  | .shr _ _ => ⟨0x8, some 0x6, none⟩
  | .subnReg _ _ => ⟨0x8, some 0x7, none⟩
  | .shl _ _ => ⟨0x8, some 0xE, none⟩
  | .sneReg _ _ => ⟨0x9, none, none⟩
  | .ldI _ => ⟨0xA, none, none⟩
  | .jpV0 _ => ⟨0xB, none, none⟩
  | .rnd _ _ => ⟨0xC, none, none⟩
  | .drw _ _ _ => ⟨0xD, none, none⟩
  | .skp _ => ⟨0xE, some 0xE, none⟩
  | .sknp _ => ⟨0xE, some 0x1, none⟩
  | .ldVxDT _ => ⟨0xF, none, some 0x07⟩
  | .ldVxK _ => ⟨0xF, none, some 0x0A⟩
  | .ldDTVx _ => ⟨0xF, none, some 0x15⟩
  | .ldSTVx _ => ⟨0xF, none, some 0x18⟩
  | .addIVx _ => ⟨0xF, none, some 0x1E⟩
  | .ldFVx _ => ⟨0xF, none, some 0x29⟩
  | .ldBVx _ => ⟨0xF, none, some 0x33⟩
  | .ldMemVx _ => ⟨0xF, none, some 0x55⟩
  | .ldVxMem _ => ⟨0xF, none, some 0x65⟩
  | .nop => ⟨0x8, some 0x8, none⟩

/-- The encoding of a well-formed instruction is a word of its row. -/
def Statement (i : Instr) : Prop := i.wellFormed = true → (row i).selects (encode i)

theorem selects_op {op : Nat} {w : Word} (h : w.toNat / 4096 = op) : Selector.selects ⟨op, none, none⟩ w := by
  simp [Selector.selects, h]

theorem selects_nibble {op n : Nat} {w : Word} (h : w.toNat / 4096 = op) (hn : w.toNat % 16 = n) :
    Selector.selects ⟨op, some n, none⟩ w := by
  simp [Selector.selects, h, hn]

theorem selects_byte {op b : Nat} {w : Word} (h : w.toNat / 4096 = op) (hb : w.toNat % 256 = b) :
    Selector.selects ⟨op, none, some b⟩ w := by
  simp [Selector.selects, h, hb]

theorem selects_wordA {op : Nat} (h : op ≤ 15) {nnn : Word} (hn : addressFits nnn = true) :
    Selector.selects ⟨op, none, none⟩ (wordA op nnn) := by
  have hn := of_decide_eq_true hn
  exact selects_op (by rw [wordA_toNat h hn]; omega)

theorem selects_wordXK {op : Nat} (h : op ≤ 15) (x : Reg) (kk : Byte) :
    Selector.selects ⟨op, none, none⟩ (wordXK op x kk.toNat) := by
  have hx := x.isLt
  have hk := kk.isLt
  exact selects_op (by rw [wordXK_toNat h (by omega)]; omega)

theorem selects_wordXK_nibble {op b n : Nat} (h : op ≤ 15) (hb : b ≤ 255) (hn : b % 16 = n) (x : Reg) :
    Selector.selects ⟨op, some n, none⟩ (wordXK op x b) := by
  have hx := x.isLt
  exact selects_nibble (by rw [wordXK_toNat h hb]; omega) (by rw [wordXK_toNat h hb]; omega)

theorem selects_wordXK_byte {op b : Nat} (h : op ≤ 15) (hb : b ≤ 255) (x : Reg) :
    Selector.selects ⟨op, none, some b⟩ (wordXK op x b) := by
  have hx := x.isLt
  exact selects_byte (by rw [wordXK_toNat h hb]; omega) (by rw [wordXK_toNat h hb]; omega)

theorem selects_nibbles {op n : Nat} (h : op ≤ 15) (hn : n ≤ 15) (x y : Reg) :
    Selector.selects ⟨op, none, none⟩ (nibbles op x.val y.val n) := by
  have hx := x.isLt
  have hy := y.isLt
  exact selects_op (by rw [nibbles_toNat h (by omega) (by omega) hn]; omega)

theorem selects_nibbles_nibble {op n : Nat} (h : op ≤ 15) (hn : n ≤ 15) (x y : Reg) :
    Selector.selects ⟨op, some n, none⟩ (nibbles op x.val y.val n) := by
  have hx := x.isLt
  have hy := y.isLt
  exact selects_nibble (by rw [nibbles_toNat h (by omega) (by omega) hn]; omega)
    (by rw [nibbles_toNat h (by omega) (by omega) hn]; omega)

theorem cls : Statement (.cls) := fun _ => selects_nibble rfl rfl
theorem ret : Statement (.ret) := fun _ => selects_nibble rfl rfl
theorem jp (nnn : Word) : Statement (.jp nnn) := fun h => selects_wordA (by decide) h
theorem call (nnn : Word) : Statement (.call nnn) := fun h => selects_wordA (by decide) h
theorem seImm (x : Reg) (kk : Byte) : Statement (.seImm x kk) := fun _ => selects_wordXK (by decide) x kk
theorem sneImm (x : Reg) (kk : Byte) : Statement (.sneImm x kk) := fun _ => selects_wordXK (by decide) x kk
theorem seReg (x : Reg) (y : Reg) : Statement (.seReg x y) := fun _ => selects_nibbles (by decide) (by decide) x y
theorem ldImm (x : Reg) (kk : Byte) : Statement (.ldImm x kk) := fun _ => selects_wordXK (by decide) x kk
theorem addImm (x : Reg) (kk : Byte) : Statement (.addImm x kk) := fun _ => selects_wordXK (by decide) x kk
theorem ldReg (x : Reg) (y : Reg) : Statement (.ldReg x y) := fun _ => selects_nibbles_nibble (by decide) (by decide) x y
theorem orReg (x : Reg) (y : Reg) : Statement (.orReg x y) := fun _ => selects_nibbles_nibble (by decide) (by decide) x y
theorem andReg (x : Reg) (y : Reg) : Statement (.andReg x y) := fun _ => selects_nibbles_nibble (by decide) (by decide) x y
theorem xorReg (x : Reg) (y : Reg) : Statement (.xorReg x y) := fun _ => selects_nibbles_nibble (by decide) (by decide) x y
theorem addReg (x : Reg) (y : Reg) : Statement (.addReg x y) := fun _ => selects_nibbles_nibble (by decide) (by decide) x y
theorem subReg (x : Reg) (y : Reg) : Statement (.subReg x y) := fun _ => selects_nibbles_nibble (by decide) (by decide) x y
theorem shr (x : Reg) (y : Reg) : Statement (.shr x y) := fun _ => selects_nibbles_nibble (by decide) (by decide) x y
theorem subnReg (x : Reg) (y : Reg) : Statement (.subnReg x y) := fun _ => selects_nibbles_nibble (by decide) (by decide) x y
theorem shl (x : Reg) (y : Reg) : Statement (.shl x y) := fun _ => selects_nibbles_nibble (by decide) (by decide) x y
theorem sneReg (x : Reg) (y : Reg) : Statement (.sneReg x y) := fun _ => selects_nibbles (by decide) (by decide) x y
theorem ldI (nnn : Word) : Statement (.ldI nnn) := fun h => selects_wordA (by decide) h
theorem jpV0 (nnn : Word) : Statement (.jpV0 nnn) := fun h => selects_wordA (by decide) h
theorem rnd (x : Reg) (kk : Byte) : Statement (.rnd x kk) := fun _ => selects_wordXK (by decide) x kk
theorem drw (x : Reg) (y : Reg) (n : Nat) : Statement (.drw x y n) := fun h => selects_nibbles (by decide) (of_decide_eq_true h) x y
theorem skp (x : Reg) : Statement (.skp x) := fun _ => selects_wordXK_nibble (by decide) (by decide) (by decide) x
theorem sknp (x : Reg) : Statement (.sknp x) := fun _ => selects_wordXK_nibble (by decide) (by decide) (by decide) x
theorem ldVxDT (x : Reg) : Statement (.ldVxDT x) := fun _ => selects_wordXK_byte (by decide) (by decide) x
theorem ldVxK (x : Reg) : Statement (.ldVxK x) := fun _ => selects_wordXK_byte (by decide) (by decide) x
theorem ldDTVx (x : Reg) : Statement (.ldDTVx x) := fun _ => selects_wordXK_byte (by decide) (by decide) x
theorem ldSTVx (x : Reg) : Statement (.ldSTVx x) := fun _ => selects_wordXK_byte (by decide) (by decide) x
theorem addIVx (x : Reg) : Statement (.addIVx x) := fun _ => selects_wordXK_byte (by decide) (by decide) x
theorem ldFVx (x : Reg) : Statement (.ldFVx x) := fun _ => selects_wordXK_byte (by decide) (by decide) x
theorem ldBVx (x : Reg) : Statement (.ldBVx x) := fun _ => selects_wordXK_byte (by decide) (by decide) x
theorem ldMemVx (x : Reg) : Statement (.ldMemVx x) := fun _ => selects_wordXK_byte (by decide) (by decide) x
theorem ldVxMem (x : Reg) : Statement (.ldVxMem x) := fun _ => selects_wordXK_byte (by decide) (by decide) x
theorem nop : Statement (.nop) := fun _ => selects_nibble rfl rfl

end Sys2Proof.Laws.EncodedRow
end

