-- ==== Sys2Proof/Laws/Registers.lean ====
section
/-! SUPPORT. The register file (10_state.md R24, R25): a read after a write, the result and flag write, the block load and
the registers a block store takes. -/

namespace Sys2Proof.Machine

theorem getV_eq_of_v_eq {s t : State} (h : t.v = s.v) (r : Reg) : t.getV r = s.getV r := by
  simp only [State.getV, h]

theorem getV_setV (s : State) (r q : Reg) (b : Byte) :
    (s.setV r b).getV q = if q = r then b else s.getV q := by
  simp only [State.getV, State.setV, Vector.getElem_set, Fin.ext_iff, eq_comm]

@[simp] theorem getV_setV_self (s : State) (r : Reg) (b : Byte) : (s.setV r b).getV r = b := by
  simp [getV_setV]

theorem getV_setV_other (s : State) {r q : Reg} (b : Byte) (h : q ≠ r) : (s.setV r b).getV q = s.getV q := by
  simp [getV_setV, h]

theorem getV_setFlag (c : Bool) (s : State) (q : Reg) :
    (setFlag c s).getV q = if q = 15 then flagByte c else s.getV q :=
  getV_setV s vf q (flagByte c)

/-- The flag survives when the destination is VF (42_alu.md R120). -/
theorem getV_writeResultAndFlag (x q : Reg) (b : Byte) (c : Bool) (s : State) :
    (writeResultAndFlag x b c s).getV q = if q = 15 then flagByte c else if q = x then b else s.getV q := by
  show (setFlag c (s.setV x b)).getV q = _
  rw [getV_setFlag, getV_setV]

theorem flagByte_toNat (c : Bool) : (flagByte c).toNat = if c then 1 else 0 := by
  cases c <;> rfl

/-- A block load puts byte k of the list into register i + k and leaves every other register alone
(45_timer_index_memory.md R167). -/
theorem loadRegs_getElem (bs : List Byte) (v : Vector Byte 16) (i q : Nat) (hq : q < 16) :
    (loadRegs v i bs)[q] = if h : i ≤ q ∧ q - i < bs.length then bs[q - i]'h.2 else v[q] := by
  induction bs generalizing v i with
  | nil => simp [loadRegs]
  | cons b bs ih =>
    rw [loadRegs, ih]
    by_cases h1 : i + 1 ≤ q ∧ q - (i + 1) < bs.length
    · have h2 : i ≤ q ∧ q - i < (b :: bs).length := ⟨by omega, by simp only [List.length_cons]; omega⟩
      have h3 : q - i = (q - (i + 1)) + 1 := by omega
      rw [dif_pos h1, dif_pos h2]
      simp only [h3, List.getElem_cons_succ]
    · rw [dif_neg h1]
      by_cases h2 : i = q
      · subst h2
        simp
      · rw [Vector.getElem_setIfInBounds_ne hq h2]
        have h3 : ¬ (i ≤ q ∧ q - i < (b :: bs).length) := by simp only [List.length_cons]; omega
        rw [dif_neg h3]

@[simp] theorem length_registersUpTo (x : Reg) (s : State) : (registersUpTo x s).length = x.val + 1 := by
  simp only [registersUpTo, List.length_take, Vector.length_toList]
  omega

/-- Byte k of the registers a block store takes is V[k] (45_timer_index_memory.md R166). -/
theorem registersUpTo_getElem (x r : Reg) (s : State) (h : r.val < (registersUpTo x s).length) :
    (registersUpTo x s)[r.val] = s.getV r := by
  simp [registersUpTo, State.getV]

end Sys2Proof.Machine
end

