-- ==== Sys2Proof/Tests/Slice0.lean ====
section
/-! SUPPORT. The model's own tests. Expected results come from spec/95_test_vectors.md (its case numbers stand in the
docstrings) and from the encodings of 30_encoding.md. Then, for every obligation with hypotheses, values that meet them. -/

namespace Sys2Proof.Tests

open Sys2Proof Sys2Proof.Machine

/-! ## WellFormed: each check refuses an ill-formed term and takes the last good one -/

theorem smoke_jp : (Instr.jp 0x1000).wellFormed = false ∧ (Instr.jp 0xFFF).wellFormed = true := by decide

theorem smoke_call : (Instr.call 0x1000).wellFormed = false ∧ (Instr.call 0xFFF).wellFormed = true := by decide

theorem smoke_ldI : (Instr.ldI 0xFFFF).wellFormed = false ∧ (Instr.ldI 0xFFF).wellFormed = true := by decide

theorem smoke_jpV0 : (Instr.jpV0 0x1000).wellFormed = false ∧ (Instr.jpV0 0xFFF).wellFormed = true := by decide

theorem smoke_drw : (Instr.drw 0 0 16).wellFormed = false ∧ (Instr.drw 15 15 15).wellFormed = true := by decide

/-! ## Decoding: words written field by field from 30_encoding.md R71 and R80 -/

/-- Format A and the 0-family. -/
theorem decode_addresses :
    decodeWord (0x0#4 ++ 0x0#4 ++ 0xE0#8) = .cls ∧ decodeWord (0x0#4 ++ 0x0#4 ++ 0xEE#8) = .ret ∧
    decodeWord (0x1#4 ++ 0xABC#12) = .jp 0xABC ∧ decodeWord (0x2#4 ++ 0x35A#12) = .call 0x35A ∧
    decodeWord (0xA#4 ++ 0xFFF#12) = .ldI 0xFFF ∧ decodeWord (0xB#4 ++ 0x300#12) = .jpV0 0x300 := by decide

/-- A register and a byte. -/
theorem decode_immediates :
    decodeWord (0x3#4 ++ 0xA#4 ++ 0x42#8) = .seImm 10 0x42 ∧ decodeWord (0x4#4 ++ 0xB#4 ++ 0x24#8) = .sneImm 11 0x24 ∧
    decodeWord (0x6#4 ++ 0xC#4 ++ 0xCD#8) = .ldImm 12 0xCD ∧ decodeWord (0x7#4 ++ 0xF#4 ++ 0x01#8) = .addImm 15 1 ∧
    decodeWord (0xC#4 ++ 0x3#4 ++ 0x0F#8) = .rnd 3 0x0F := by decide

/-- Two registers and a nibble. -/
theorem decode_register_pairs :
    decodeWord (0x5#4 ++ 0x1#4 ++ 0x2#4 ++ 0x0#4) = .seReg 1 2 ∧
    decodeWord (0x9#4 ++ 0x2#4 ++ 0x1#4 ++ 0x0#4) = .sneReg 2 1 ∧
    decodeWord (0x8#4 ++ 0x1#4 ++ 0x2#4 ++ 0x0#4) = .ldReg 1 2 ∧
    decodeWord (0x8#4 ++ 0x3#4 ++ 0x4#4 ++ 0x1#4) = .orReg 3 4 ∧
    decodeWord (0x8#4 ++ 0x5#4 ++ 0x6#4 ++ 0x2#4) = .andReg 5 6 ∧
    decodeWord (0x8#4 ++ 0x7#4 ++ 0x8#4 ++ 0x3#4) = .xorReg 7 8 ∧
    decodeWord (0x8#4 ++ 0x9#4 ++ 0xA#4 ++ 0x4#4) = .addReg 9 10 ∧
    decodeWord (0x8#4 ++ 0xB#4 ++ 0xC#4 ++ 0x5#4) = .subReg 11 12 ∧
    decodeWord (0x8#4 ++ 0xD#4 ++ 0xE#4 ++ 0x6#4) = .shr 13 14 ∧
    decodeWord (0x8#4 ++ 0xF#4 ++ 0x0#4 ++ 0x7#4) = .subnReg 15 0 ∧
    decodeWord (0x8#4 ++ 0x0#4 ++ 0xF#4 ++ 0xE#4) = .shl 0 15 ∧
    decodeWord (0xD#4 ++ 0x1#4 ++ 0x2#4 ++ 0xF#4) = .drw 1 2 15 := by decide

/-- One register and a function byte. -/
theorem decode_single_registers :
    decodeWord (0xE#4 ++ 0x2#4 ++ 0x9E#8) = .skp 2 ∧ decodeWord (0xE#4 ++ 0x3#4 ++ 0xA1#8) = .sknp 3 ∧
    decodeWord (0xF#4 ++ 0x4#4 ++ 0x07#8) = .ldVxDT 4 ∧ decodeWord (0xF#4 ++ 0x5#4 ++ 0x0A#8) = .ldVxK 5 ∧
    decodeWord (0xF#4 ++ 0x6#4 ++ 0x15#8) = .ldDTVx 6 ∧ decodeWord (0xF#4 ++ 0x7#4 ++ 0x18#8) = .ldSTVx 7 ∧
    decodeWord (0xF#4 ++ 0x8#4 ++ 0x1E#8) = .addIVx 8 ∧ decodeWord (0xF#4 ++ 0x9#4 ++ 0x29#8) = .ldFVx 9 ∧
    decodeWord (0xF#4 ++ 0xA#4 ++ 0x33#8) = .ldBVx 10 ∧ decodeWord (0xF#4 ++ 0xB#4 ++ 0x55#8) = .ldMemVx 11 ∧
    decodeWord (0xF#4 ++ 0xC#4 ++ 0x65#8) = .ldVxMem 12 := by decide

/-- 30_encoding.md R82, R100: the unrecognised words of T21. -/
theorem decode_unrecognised :
    ∀ w ∈ [0x0001, 0x00E1, 0x8008, 0x812F, 0xE000, 0xE29F, 0xF000, 0xF0FF, 0xF266],
      decodeWord (BitVec.ofNat 16 w) = .nop := by decide

/-- The bytes of a word, high byte first; one byte alone is no instruction (20_memory.md R50, 30_encoding.md R70). -/
theorem decode_bytes :
    decode [0x12, 0x34, 0x56] = .ok (.jp 0x234, [0x56]) ∧ decode [0x12] = .error .truncated ∧
    decode [] = .error .truncated ∧ decodeTableWord 16 0xF333 = some (.ldBVx 3) := by
  refine ⟨rfl, rfl, rfl, rfl⟩

/-! ## One step of each instruction -/

/-- `State.reset` with these registers set. -/
def withV (vs : List (Reg × Byte)) (s : State := State.reset) : State := vs.foldl (fun s p => s.setV p.1 p.2) s

/-- `State.reset` with I, and bytes stored from I on. -/
def withI (i : Word) (bs : List Byte) (s : State := State.reset) : State := { s with i := i }.storeBytes i.toNat bs

/-- One step with the word at PC answers a next state of which `p` holds. -/
def steps (w : Nat) (s : State) (p : State → Bool) : Bool :=
  match step (s.withFetchWord 16 w) with
  | .next t => p t
  | .fault _ => false
  | .refused _ => false

/-- These cells are on and those are off. -/
def cells (on off : List (Nat × Nat)) (s : State) : Bool :=
  on.all (fun c => s.disp.get c.1 c.2) && off.all (fun c => !s.disp.get c.1 c.2)

/-- The latch after a fault that left PC at 0x200. -/
def latchedAt200 (code : BitVec 3) (info : Word) (t : State) : Bool :=
  t.fault == code && t.faultInfo == info && t.pc == 0x200

/-- T22, T23. -/
theorem test_cls :
    let s : State := { State.reset with disp := State.reset.disp.set 3 3 true, dirty := false }
    steps 0x0000 s (fun t => t.disp == Display.blank && t.dirty && t.pc == 0x202) = true ∧
    steps 0x0230 s (fun t => t.disp == Display.blank && t.dirty && t.pc == 0x202) = true := by decide

/-- T4, T5. -/
theorem test_ret :
    steps 0x00EE State.reset (fun t => latchedAt200 4 0 t && t.sp == 0 && t.opcode == 0x00EE) = true ∧
    steps 0x0FFE { State.reset with sp := 2, stack := (State.reset.stack.set 0 0x345).set 1 0x456 }
      (fun t => t.sp == 1 && t.pc == 0x456 && t.stack[1] == 0x456) = true := by decide

/-- T1. -/
theorem test_jp : steps 0x1ABC State.reset (fun t => t.pc == 0xABC && t.opcode == 0x1ABC) = true := by decide

/-- T2, and step 17 of P5. -/
theorem test_call :
    steps 0x2F00 { State.reset with pc := 0xFFE }
      (fun t => t.stack[0] == 0x1000 && t.sp == 1 && t.pc == 0xF00) = true ∧
    steps 0x2200 { State.reset with sp := 16 } (fun t => latchedAt200 3 16 t && t.sp == 16) = true := by decide

/-- T6, T7, T20. -/
theorem test_seImm :
    steps 0x3A42 (withV [(10, 0x42)]) (·.pc == 0x204) = true ∧ steps 0x3A42 (withV [(10, 0x43)]) (·.pc == 0x202) = true ∧
    steps 0x3000 { State.reset with pc := 0xFFE } (fun t => t.pc == 0x1002 && t.fault == 0) = true := by decide

/-- T8, T9. -/
theorem test_sneImm :
    steps 0x4A42 (withV [(10, 0x42)]) (·.pc == 0x202) = true ∧
    steps 0x4A42 (withV [(10, 0x43)]) (·.pc == 0x204) = true := by decide

/-- T10, T11, T12. -/
theorem test_seReg :
    steps 0x5121 (withV [(1, 7), (2, 7)]) (·.pc == 0x204) = true ∧
    steps 0x5120 (withV [(1, 7), (2, 8)]) (·.pc == 0x202) = true ∧
    steps 0x5FF0 (withV [(15, 9)]) (·.pc == 0x204) = true := by decide

/-- T13, T14. -/
theorem test_sneReg :
    steps 0x9120 (withV [(1, 7), (2, 7)]) (·.pc == 0x202) = true ∧
    steps 0x912F (withV [(1, 7), (2, 8)]) (·.pc == 0x204) = true := by decide

/-- T15, T16. -/
theorem test_jpV0 :
    steps 0xB300 (withV [(0, 0x10)]) (·.pc == 0x310) = true ∧
    steps 0xBFFF (withV [(0, 0xFF)]) (fun t => t.pc == 0x10FE && t.fault == 0 && fetchFault t == some 0x10FE) = true := by
  decide

/-- T21. -/
theorem test_nop :
    steps 0x8008 (withV [(1, 5), (2, 6)])
      (fun t => t == { (withV [(1, 5), (2, 6)]).withFetchWord 16 0x8008 with pc := 0x202, opcode := 0x8008 }) = true := by
  decide

/-- T30. -/
theorem test_ldImm : steps 0x6BCD State.reset (fun t => t.getV 11 == 0xCD && t.pc == 0x202) = true := by decide

/-- S1, T31. -/
theorem test_addImm :
    steps 0x7302 (withV [(3, 0xFF)]) (fun t => t.getV 3 == 1 && t.getV 15 == 0) = true ∧
    steps 0x7F01 (withV [(15, 0xFF)]) (·.getV 15 == 0) = true := by decide

/-- T32. -/
theorem test_ldI : steps 0xAFFF State.reset (·.i == 0xFFF) = true := by decide

/-- T33 for whatever byte is drawn: the bits outside the mask are 0. -/
theorem test_rnd : ∃ t, step (State.reset.withFetchWord 16 0xC30F) = .next t ∧ t.getV 3 = Config.randomByte 0 0 &&& 0x0F :=
  ⟨_, rfl, rfl⟩

/-- T40. -/
theorem test_ldReg : steps 0x8010 (withV [(0, 1), (1, 0x5A)]) (·.getV 0 == 0x5A) = true := by decide

/-- T41. -/
theorem test_orReg :
    steps 0x8011 (withV [(0, 0x0F), (1, 0xF0), (15, 7)]) (fun t => t.getV 0 == 0xFF && t.getV 15 == 7) = true := by decide

/-- T42. -/
theorem test_andReg :
    steps 0x8012 (withV [(0, 0x3C), (1, 0x0F), (15, 7)]) (fun t => t.getV 0 == 0x0C && t.getV 15 == 7) = true := by decide

/-- T43. -/
theorem test_xorReg :
    steps 0x8013 (withV [(0, 0xFF), (1, 0x0F), (15, 7)]) (fun t => t.getV 0 == 0xF0 && t.getV 15 == 7) = true := by decide

/-- S2, T47, T49. -/
theorem test_addReg :
    steps 0x8014 (withV [(0, 200), (1, 100)]) (fun t => t.getV 0 == 44 && t.getV 15 == 1) = true ∧
    steps 0x8F14 (withV [(15, 0x10), (1, 0xF5)]) (·.getV 15 == 1) = true ∧
    steps 0x80F4 (withV [(0, 1), (15, 0xFF)]) (fun t => t.getV 0 == 0 && t.getV 15 == 1) = true := by decide

/-- S3, T52, T55. -/
theorem test_subReg :
    steps 0x8015 (withV [(0, 5), (1, 5)]) (fun t => t.getV 0 == 0 && t.getV 15 == 0) = true ∧
    steps 0x8015 (withV [(0, 3), (1, 5)]) (fun t => t.getV 0 == 0xFE && t.getV 15 == 0) = true ∧
    steps 0x8F15 (withV [(15, 3), (1, 9)]) (·.getV 15 == 0) = true := by decide

/-- S4, T59, T60. -/
theorem test_shr :
    steps 0x8016 (withV [(0, 0x0B)]) (fun t => t.getV 0 == 5 && t.getV 15 == 1) = true ∧
    steps 0x8016 (withV [(0, 0xFE), (1, 0x55)]) (fun t => t.getV 0 == 0x7F && t.getV 15 == 0 && t.getV 1 == 0x55) = true ∧
    steps 0x8F16 (withV [(15, 3)]) (·.getV 15 == 1) = true := by decide

/-- T62, T63, T64. -/
theorem test_subnReg :
    steps 0x8017 (withV [(0, 5), (1, 3)]) (fun t => t.getV 0 == 0xFE && t.getV 15 == 0) = true ∧
    steps 0x8017 (withV [(0, 3), (1, 5)]) (fun t => t.getV 0 == 2 && t.getV 15 == 1) = true ∧
    steps 0x8017 (withV [(0, 5), (1, 5)]) (fun t => t.getV 0 == 0 && t.getV 15 == 0) = true := by decide

/-- T66, T67, T70. -/
theorem test_shl :
    steps 0x801E (withV [(0, 0x81)]) (fun t => t.getV 0 == 2 && t.getV 15 == 1) = true ∧
    steps 0x801E (withV [(0, 0x40), (1, 0xFF)]) (fun t => t.getV 0 == 0x80 && t.getV 15 == 0) = true ∧
    steps 0x8F1E (withV [(15, 0x7F)]) (·.getV 15 == 0) = true := by decide

/-- T80, T81, T86, T90: toggling, latched operands, clipping. -/
theorem test_drw :
    steps 0xD011 { withI 0x300 [0xC0] with disp := State.reset.disp.set 1 0 true, dirty := false }
      (fun t => cells [(0, 0)] [(1, 0), (2, 0), (0, 1)] t && t.getV 15 == 1 && t.dirty) = true ∧
    steps 0xDF11 (withV [(15, 5), (1, 2)] (withI 0x300 [0x80]))
      (fun t => cells [(5, 2)] [(0, 2), (6, 2), (2, 5)] t && t.getV 15 == 0) = true ∧
    steps 0xD012 (withV [(0, 0xFF), (1, 0xFF)] (withI 0x300 [0xFF, 0xFF]))
      (fun t => cells [(63, 31)] [(62, 31), (0, 31), (63, 0), (0, 0)] t && t.getV 15 == 0) = true ∧
    steps 0xD011 { withV [(0, 0x3F)] (withI 0x300 [0xC0]) with
        disp := (State.reset.disp.set 0 0 true).set 0 1 true }
      (fun t => cells [(63, 0), (0, 0), (0, 1)] [(1, 0), (62, 0)] t && t.getV 15 == 0) = true := by decide

/-- T82, T84: no rows at any I; a range fault before any change. -/
theorem test_drw_range :
    steps 0xD010 { withV [(15, 7)] (withI 0x1234 []) with dirty := false }
      (fun t => t.fault == 0 && cells [] [(0, 0), (7, 0)] t && t.getV 15 == 0 && t.dirty && t.pc == 0x202) = true ∧
    steps 0xD013 { withV [(15, 7)] (withI 0xFFE []) with dirty := false }
      (fun t => latchedAt200 2 0x1000 t && t.getV 15 == 7 && !t.dirty && cells [] [(0, 0), (7, 0)] t) = true := by decide

/-- T100, T101, T107. -/
theorem test_skp :
    steps 0xE29E { withV [(2, 7)] with key := 0x0080 } (·.pc == 0x204) = true ∧
    steps 0xE29E (withV [(2, 7)]) (·.pc == 0x202) = true ∧
    steps 0xE29E (withV [(2, 0x10)]) (latchedAt200 5 0x10) = true := by decide

/-- T102, T103, T108. -/
theorem test_sknp :
    steps 0xE2A1 (withV [(2, 7)]) (·.pc == 0x204) = true ∧
    steps 0xE2A1 { withV [(2, 7)] with key := 0x0080 } (·.pc == 0x202) = true ∧
    steps 0xE2A1 (withV [(2, 0xFF)]) (latchedAt200 5 0xFF) = true := by decide

/-- S8, T109. -/
theorem test_ldVxK :
    steps 0xF30A (withV [(3, 0x55)]) (fun t => t.pc == 0x200 && t.getV 3 == 0x55 && t.opcode == 0xF30A) = true ∧
    steps 0xF30A { State.reset with key := 0x0080 } (fun t => t.getV 3 == 7 && t.pc == 0x202) = true ∧
    steps 0xF30A { State.reset with key := 0x1008 } (fun t => t.getV 3 == 3 && t.pc == 0x202) = true := by decide

/-- T120. -/
theorem test_ldVxDT :
    steps 0xF307 { State.reset with dt := 0x2A } (fun t => t.getV 3 == 0x2A && t.dt == 0x2A) = true := by decide

/-- T121. -/
theorem test_ldDTVx : steps 0xF315 (withV [(3, 0x3C)]) (fun t => t.dt == 0x3C && t.st == 0) = true := by decide

/-- T122. -/
theorem test_ldSTVx : steps 0xF318 (withV [(3, 5)]) (fun t => t.st == 5 && t.dt == 0) = true := by decide

/-- T123, T125, T127, T130. -/
theorem test_addIVx :
    steps 0xF11E (withV [(1, 0x20)] (withI 0xFF0 [])) (fun t => t.i == 0x1010 && t.getV 15 == 1) = true ∧
    steps 0xF11E (withV [(15, 1)] (withI 0xFFF [])) (fun t => t.i == 0xFFF && t.getV 15 == 0) = true ∧
    steps 0xF11E (withV [(1, 0xFF)] (withI 0xFFFF [])) (fun t => t.i == 0xFE && t.getV 15 == 1) = true ∧
    steps 0xFF1E (withV [(15, 2)] (withI 0xFFE [])) (fun t => t.i == 0x1000 && t.getV 15 == 1) = true := by decide

/-- T131. -/
theorem test_ldFVx :
    steps 0xF429 (withV [(4, 0x0A)]) (·.i == 0x82) = true ∧ steps 0xF429 (withV [(4, 0xFF)]) (·.i == 0x54B) = true := by
  decide

/-- S6, T132, T134. -/
theorem test_ldBVx :
    steps 0xF333 (withV [(3, 234)] (withI 0x300 [])) (fun t => readBytes t.mem 0x300 3 == [2, 3, 4] && t.i == 0x300) = true ∧
    steps 0xF333 (withV [(3, 0x13)] (withI 0x300 [])) (fun t => readBytes t.mem 0x300 3 == [0, 1, 9]) = true ∧
    steps 0xF333 (withV [(3, 234)] (withI 0xFFE []))
      (fun t => latchedAt200 2 0x1000 t && readBytes t.mem 0xFFE 2 == [0, 0]) = true := by decide

/-- T136, T138. -/
theorem test_ldMemVx :
    steps 0xF255 (withV [(0, 0x11), (1, 0x22), (2, 0x33), (3, 0x44)] (withI 0x400 []))
      (fun t => readBytes t.mem 0x400 4 == [0x11, 0x22, 0x33, 0x00] && t.i == 0x400) = true ∧
    steps 0xFF55 (withV [(0, 0x11), (15, 0xEE)] (withI 0xFF1 []))
      (fun t => latchedAt200 2 0x1000 t && readBytes t.mem 0xFF1 15 == List.replicate 15 0) = true := by decide

/-- T141, T142: the glyph table among them. -/
theorem test_ldVxMem :
    steps 0xF265 (withV [(3, 0x99)] (withI 0x400 [0x11, 0x22, 0x33, 0x44]))
      (fun t => t.v.toList.take 4 == [0x11, 0x22, 0x33, 0x99] && t.i == 0x400) = true ∧
    steps 0xFF65 { State.reset with i := 0x50 } (fun t => t.v.toList ==
      [0xF0, 0x90, 0x90, 0x90, 0xF0, 0x20, 0x60, 0x20, 0x20, 0x70, 0xF0, 0x10, 0xF0, 0x80, 0xF0, 0xF0]) = true := by
  decide

/-! ## The fetch and the events -/

/-- T17, T18, T24: an odd PC, a fetch past the end, a halted core. -/
theorem test_fetch :
    (∃ t, step { State.reset.storeBytes 0x201 [0x12, 0x34] with pc := 0x201 } = .next t ∧ t.opcode = 0x1234 ∧
      t.pc = 0x234) ∧
    step { State.reset with pc := 0xFFF } = .next { State.reset with pc := 0xFFF, fault := 2, faultInfo := 0x1000 } ∧
    step { State.reset with fault := 3, faultInfo := 16 } = .next { State.reset with fault := 3, faultInfo := 16 } :=
  ⟨⟨_, rfl, rfl, rfl⟩, rfl, rfl⟩

/-- T151, T152, and T150. -/
theorem test_tick :
    let s := tick (tick (tick { State.reset with dt := 0xFF, st := 2 }))
    s.dt = 0xFC ∧ s.st = 0 ∧ (tick { State.reset with fault := 3, dt := 2 }).dt = 1 ∧ (tick State.reset).dt = 0 := by
  decide

/-- T155, T156. -/
theorem test_load :
    event (.load 9 (List.replicate 3585 0)) State.reset = .next (State.reset, .loadRefused 1) ∧
    (∃ t, runEvents [.load 9 [0x6A], .step] State.reset = .next t ∧ t.opcode = 0x6A00 ∧ t.getV 10 = 0 ∧ t.pc = 0x202) :=
  ⟨by rw [event, loadEvent_refused (by rw [List.length_replicate]; decide)], ⟨_, rfl, rfl, rfl, rfl⟩⟩

/-- T157: a Reset clears the latch, and gives the reset state. -/
theorem test_reset :
    resetWith 0 { State.reset with fault := 2, faultInfo := 0x1000, pc := 0x300, sp := 3 } = State.reset := by decide

/-- T158, T159. -/
theorem test_host_flags :
    clearDirty State.reset = { State.reset with dirty := false } ∧
    setKeys 0x0210 State.reset = { State.reset with key := 0x0210 } := by decide

/-- S9: a restored snapshot gives back the changed registers, sets DIRTY, and a value no snapshot made is refused. -/
theorem test_restore :
    (∃ t, event (.restore (takeSnapshot { withV [(0, 0xEA)] with dirty := false })) State.reset = .next (t, .done) ∧
      t.getV 0 = 0xEA ∧ t.dirty = true) ∧
    event (.restore (takeSnapshot { State.reset with sp := 17 })) State.reset = .refused .restoreOfNoSnapshot :=
  ⟨⟨_, rfl, rfl, rfl⟩, rfl⟩

/-! ## Witnesses: values that meet the hypotheses of each obligation, one for each clause, at the bounds -/

theorem witness_DecodeInvertsEncode :
    (Instr.drw 15 15 15).wellFormed = true ∧ (Instr.jp 0xFFF).wellFormed = true ∧ Instr.nop.wellFormed = true := by decide

theorem witness_DecoderFollowsOpcodeMap_F00F :
    (0x0FF0#16 &&& 0xF00F = 0x0000) ∧ (0x0FFE#16 &&& 0xF00F = 0x000E) ∧ (0x8FF0#16 &&& 0xF00F = 0x8000) ∧
    (0x8FF1#16 &&& 0xF00F = 0x8001) ∧ (0x8FF2#16 &&& 0xF00F = 0x8002) ∧ (0x8FF3#16 &&& 0xF00F = 0x8003) ∧
    (0x8FF4#16 &&& 0xF00F = 0x8004) ∧ (0x8FF5#16 &&& 0xF00F = 0x8005) ∧ (0x8FF6#16 &&& 0xF00F = 0x8006) ∧
    (0x8FF7#16 &&& 0xF00F = 0x8007) ∧ (0x8FFE#16 &&& 0xF00F = 0x800E) ∧ (0xEFFE#16 &&& 0xF00F = 0xE00E) ∧
    (0xEFF1#16 &&& 0xF00F = 0xE001) := by decide

theorem witness_DecoderFollowsOpcodeMap_F000 :
    (0x1FFF#16 &&& 0xF000 = 0x1000) ∧ (0x2FFF#16 &&& 0xF000 = 0x2000) ∧ (0x3FFF#16 &&& 0xF000 = 0x3000) ∧
    (0x4FFF#16 &&& 0xF000 = 0x4000) ∧ (0x5FFF#16 &&& 0xF000 = 0x5000) ∧ (0x6FFF#16 &&& 0xF000 = 0x6000) ∧
    (0x7FFF#16 &&& 0xF000 = 0x7000) ∧ (0x9FFF#16 &&& 0xF000 = 0x9000) ∧ (0xAFFF#16 &&& 0xF000 = 0xA000) ∧
    (0xBFFF#16 &&& 0xF000 = 0xB000) ∧ (0xCFFF#16 &&& 0xF000 = 0xC000) ∧ (0xDFFF#16 &&& 0xF000 = 0xD000) := by decide

theorem witness_DecoderFollowsOpcodeMap_F0FF :
    (0xFF07#16 &&& 0xF0FF = 0xF007) ∧ (0xFF0A#16 &&& 0xF0FF = 0xF00A) ∧ (0xFF15#16 &&& 0xF0FF = 0xF015) ∧
    (0xFF18#16 &&& 0xF0FF = 0xF018) ∧ (0xFF1E#16 &&& 0xF0FF = 0xF01E) ∧ (0xFF29#16 &&& 0xF0FF = 0xF029) ∧
    (0xFF33#16 &&& 0xF0FF = 0xF033) ∧ (0xFF55#16 &&& 0xF0FF = 0xF055) ∧ (0xFF65#16 &&& 0xF0FF = 0xF065) := by decide

theorem witness_IgnoredBitsAreIgnored : 255 < 256 ∧ 15 < 16 := by decide

/-- Each of the four ways to be unrecognised, and a word that is none of them. -/
theorem witness_UnrecognisedWordsOnlyAdvance :
    decodeWord 0x0FFF = .nop ∧ decodeWord 0x800F = .nop ∧ decodeWord 0xE00F = .nop ∧ decodeWord 0xF0FF = .nop ∧
    decodeWord 0x800E ≠ .nop := by decide

theorem witness_StepRunsTheDecodedInstruction :
    ({ State.reset with fault := 3 }.fault ≠ 0) ∧
    (State.reset.fault = 0 ∧ { State.reset with pc := 0xFFF }.pc.toNat > 0xFFE) ∧
    (let s := { State.reset.storeBytes 0xFFE [0x6A, 0x55] with pc := 0xFFE }
     s.fault = 0 ∧ s.pc.toNat ≤ 0xFFE ∧
      (0x6A55#16).toNat = (s.mem.read s.pc.toNat).toNat * 256 + (s.mem.read (s.pc.toNat + 1)).toNat) := by decide

/-- A fetch fault, and a return that underflows from the last word of memory. -/
theorem witness_FaultsArePrecise :
    (∃ t, State.reset.fault = 0 ∧ step { State.reset with pc := 0xFFF } = .next t ∧ t.fault ≠ 0) ∧
    (∃ t, (State.reset.storeBytes 0xFFE [0x00, 0xEE]).fault = 0 ∧
      step { State.reset.storeBytes 0xFFE [0x00, 0xEE] with pc := 0xFFE } = .next t ∧ t.fault ≠ 0) :=
  ⟨⟨_, rfl, rfl, by decide⟩, ⟨_, rfl, rfl, by decide⟩⟩

theorem witness_OnlyTheTabledInstructionsFault :
    (∃ t, exec .ret State.reset = .next t ∧ t.fault ≠ 0) ∧
    (∃ t, exec (.call 0) { State.reset with sp := 16 } = .next t ∧ t.fault ≠ 0) ∧
    (∃ t, exec (.drw 0 0 1) { State.reset with i := 0x1000 } = .next t ∧ t.fault ≠ 0) ∧
    (∃ t, exec (.ldBVx 0) { State.reset with i := 0xFFE } = .next t ∧ t.fault ≠ 0) ∧
    (∃ t, exec (.ldMemVx 15) { State.reset with i := 0xFF1 } = .next t ∧ t.fault ≠ 0) ∧
    (∃ t, exec (.ldVxMem 0) { State.reset with i := 0x1000 } = .next t ∧ t.fault ≠ 0) ∧
    (∃ t, exec (.skp 2) (withV [(2, 16)]) = .next t ∧ t.fault ≠ 0) ∧
    (∃ t, exec (.sknp 2) (withV [(2, 16)]) = .next t ∧ t.fault ≠ 0) :=
  ⟨⟨_, rfl, by decide⟩, ⟨_, rfl, by decide⟩, ⟨_, rfl, by decide⟩, ⟨_, rfl, by decide⟩, ⟨_, rfl, by decide⟩,
    ⟨_, rfl, by decide⟩, ⟨_, rfl, by decide⟩, ⟨_, rfl, by decide⟩⟩

theorem witness_EveryStepAnswersANextState : { State.reset with sp := 16 }.sp.toNat ≤ 16 := by decide

/-- A legal state with memory written, a full stack and a latched fault, and one that runs. -/
theorem witness_StepKeepsLegalStates :
    ({ State.reset.storeBytes 0xFFE [1, 2] with sp := 16, fault := 3, faultInfo := 16 }.legal) ∧
    (∃ t, State.reset.legal ∧ step State.reset = .next t) := by
  refine ⟨by decide, _, by decide, rfl⟩

/-- Legal states: one that runs, a halted one, and one whose Restore of no snapshot is refused. -/
theorem witness_EveryEventKeepsLegalStates :
    (State.reset.legal ∧ ∃ t r, event .step State.reset = .next (t, r)) ∧
    { State.reset.storeBytes 0xFFE [1, 2] with sp := 16, fault := 3, faultInfo := 16 }.legal ∧
    event (.restore (takeSnapshot { State.reset with sp := 17 })) State.reset = .refused .restoreOfNoSnapshot :=
  ⟨⟨by decide, _, _, rfl⟩, by decide, rfl⟩

/-- A run that answers a state, and one that is stopped. -/
theorem witness_ReachableStatesAreLegal :
    (∃ t, runEvents [.load 1 [0x22, 0x00], .step, .tick, .setKeys 1, .snapshot, .clearDirty] (resetWith 0 State.reset)
      = .next t) ∧
    runEvents [.restore (takeSnapshot { State.reset with sp := 17 })] (resetWith 0 State.reset)
      = .refused .restoreOfNoSnapshot :=
  ⟨⟨_, rfl⟩, rfl⟩

/-- Every event that leaves the latch alone, a Load that is refused among them. -/
theorem witness_HaltedCoreStaysAsItIs :
    let s : State := { State.reset with fault := 4, dt := 2 }
    let es : List Event := [.load 1 (List.replicate 3585 0), .step, .tick, .setKeys 5, .clearDirty, .snapshot]
    s.fault ≠ 0 ∧ (∀ e ∈ es, e.replacesState = false) ∧ ∃ t, runEvents es s = .next t := by
  refine ⟨by decide, ?_, ?_⟩
  · simp only [List.forall_mem_cons, Event.replacesState, List.length_replicate]; decide
  · rw [runEvents_next (by rw [event, loadEvent_refused (by rw [List.length_replicate]; decide)])]
    exact ⟨_, rfl⟩

/-- Each clause of the law, both ways where it has two. -/
theorem witness_ProgramCounterLaw :
    let s : State := { withV [(1, 7), (2, 7), (3, 8)] with key := 0x0080, sp := 16 }
    s.fault = 0 ∧
    (∃ t, exec (.jp 0xFFF) s = .next t ∧ t.fault = 0) ∧
    (∃ t, exec (.call 0xFFF) State.reset = .next t ∧ t.fault = 0) ∧
    (∃ t, exec (.jpV0 0xFFF) s = .next t ∧ t.fault = 0) ∧ (∃ t, exec .ret s = .next t ∧ t.fault = 0) ∧
    (∃ t, exec (.seImm 1 7) s = .next t ∧ t.fault = 0 ∧ s.getV 1 = 7) ∧
    (∃ t, exec (.sneImm 1 7) s = .next t ∧ t.fault = 0 ∧ ¬ s.getV 1 ≠ 7) ∧
    (∃ t, exec (.seReg 1 2) s = .next t ∧ t.fault = 0 ∧ s.getV 1 = s.getV 2) ∧
    (∃ t, exec (.sneReg 1 3) s = .next t ∧ t.fault = 0 ∧ s.getV 1 ≠ s.getV 3) ∧
    (∃ t, exec (.skp 1) s = .next t ∧ t.fault = 0 ∧ s.key.getLsbD (s.getV 1).toNat = true) ∧
    (∃ t, exec (.sknp 3) s = .next t ∧ t.fault = 0 ∧ s.key.getLsbD (s.getV 3).toNat = false) ∧
    (∃ t, exec (.ldVxK 4) s = .next t ∧ t.fault = 0 ∧ s.key ≠ 0) ∧
    (∃ t, exec (.ldVxK 4) State.reset = .next t ∧ t.fault = 0 ∧ State.reset.key = 0) ∧
    (∃ t, exec .nop s = .next t ∧ t.fault = 0) :=
  ⟨rfl, ⟨_, rfl, rfl⟩, ⟨_, rfl, rfl⟩, ⟨_, rfl, rfl⟩, ⟨_, rfl, rfl⟩, ⟨_, rfl, rfl, by decide⟩, ⟨_, rfl, rfl, by decide⟩,
    ⟨_, rfl, rfl, by decide⟩, ⟨_, rfl, rfl, by decide⟩, ⟨_, rfl, rfl, by decide⟩, ⟨_, rfl, rfl, by decide⟩,
    ⟨_, rfl, rfl, by decide⟩, ⟨_, rfl, rfl, rfl⟩, ⟨_, rfl, rfl⟩⟩

/-- For every piece of special state, an instruction that changes it answers a next state. -/
theorem witness_OnlyNamedInstructionsWriteSpecialState :
    let s : State := withV [(1, 9)]
    (∃ t, exec (.ldI 0xFFF) s = .next t ∧ t.i ≠ s.i) ∧ (∃ t, exec (.addIVx 1) s = .next t ∧ t.i ≠ s.i) ∧
    (∃ t, exec (.ldFVx 1) s = .next t ∧ t.i ≠ s.i) ∧ (∃ t, exec (.call 2) s = .next t ∧ t.sp ≠ s.sp) ∧
    (∃ t, exec (.ldDTVx 1) s = .next t ∧ t.dt ≠ s.dt) ∧ (∃ t, exec (.ldSTVx 1) s = .next t ∧ t.st ≠ s.st) ∧
    (∃ t, exec (.rnd 1 0) s = .next t ∧ t.rng.drawn ≠ s.rng.drawn) ∧
    (∃ t, exec .cls { s with dirty := false } = .next t ∧ t.dirty = true) ∧
    (∃ t, exec .ret s = .next t ∧ t.fault ≠ s.fault) :=
  ⟨⟨_, rfl, by decide⟩, ⟨_, rfl, by decide⟩, ⟨_, rfl, by decide⟩, ⟨_, rfl, by decide⟩, ⟨_, rfl, by decide⟩,
    ⟨_, rfl, by decide⟩, ⟨_, rfl, by decide⟩, ⟨_, rfl, rfl⟩, ⟨_, rfl, by decide⟩⟩

/-- Every clause's instruction answers a next state; the destination is not VF, so the frame says something of it. -/
theorem witness_OnlyDestinationRegistersChange :
    let s : State := State.reset
    (∃ t, exec (.ldImm 1 2) s = .next t) ∧ (∃ t, exec (.addImm 1 2) s = .next t) ∧ (∃ t, exec (.rnd 1 2) s = .next t) ∧
    (∃ t, exec (.ldReg 1 2) s = .next t) ∧ (∃ t, exec (.orReg 1 2) s = .next t) ∧ (∃ t, exec (.andReg 1 2) s = .next t) ∧
    (∃ t, exec (.xorReg 1 2) s = .next t) ∧ (∃ t, exec (.ldVxDT 1) s = .next t) ∧ (∃ t, exec (.ldVxK 1) s = .next t) ∧
    (∃ t, exec (.addReg 1 2) s = .next t) ∧ (∃ t, exec (.subReg 1 2) s = .next t) ∧
    (∃ t, exec (.subnReg 1 2) s = .next t) ∧ (∃ t, exec (.shr 1 2) s = .next t) ∧ (∃ t, exec (.shl 1 2) s = .next t) ∧
    (∃ t, exec (.drw 1 2 15) s = .next t) ∧ (∃ t, exec (.addIVx 1) s = .next t) ∧
    (∃ t, exec (.ldVxMem 14) s = .next t ∧ (14 : Reg) < 15) ∧ (∃ t, exec .nop s = .next t) :=
  ⟨⟨_, rfl⟩, ⟨_, rfl⟩, ⟨_, rfl⟩, ⟨_, rfl⟩, ⟨_, rfl⟩, ⟨_, rfl⟩, ⟨_, rfl⟩, ⟨_, rfl⟩, ⟨_, rfl⟩, ⟨_, rfl⟩, ⟨_, rfl⟩,
    ⟨_, rfl⟩, ⟨_, rfl⟩, ⟨_, rfl⟩, ⟨_, rfl⟩, ⟨_, rfl⟩, ⟨_, rfl, by decide⟩, ⟨_, rfl⟩⟩

theorem witness_OnlyStoresChangeMemory :
    (∃ t, exec (.ldBVx 1) { State.reset with i := 0xFFD } = .next t ∧ ¬ (0xFFD ≤ 0xFFC ∧ 0xFFC < 0xFFD + 3)) ∧
    (∃ t, exec (.ldMemVx 15) { State.reset with i := 0xFF0 } = .next t ∧ ¬ (0xFF0 ≤ 0xFEF ∧ 0xFEF < 0xFF0 + 16)) ∧
    (∃ t, exec (.ldVxMem 15) State.reset = .next t) :=
  ⟨⟨_, rfl, by decide⟩, ⟨_, rfl, by decide⟩, ⟨_, rfl⟩⟩

theorem witness_CanonicalMemoryIsDeterminedByItsBytes :
    let m := (State.reset.storeBytes 0xFFF [7]).mem
    let m' := (State.reset.storeBytes 0xFFE [9, 7]).mem.write 0xFFE 0
    m.wf ∧ m'.wf ∧ ∀ a < 4096, m.read a = m'.read a :=
  ⟨by decide, by decide, fun _ _ => rfl⟩

theorem witness_JumpsGoToTheirTarget : (0xFFF#16).toNat ≤ 0xFFF := by decide

theorem witness_CallPushesReturnAddress :
    (0xFFF#16).toNat ≤ 0xFFF ∧ { State.reset with sp := 15 }.sp.toNat < 16 ∧
    (0x0000#16).toNat = ({ State.reset with pc := 0xFFFE }.pc.toNat + 2) % 65536 ∧
    14 ≠ { State.reset with sp := 15 }.sp.toNat ∧ 16 ≤ { State.reset with sp := 16 }.sp.toNat := by decide

theorem witness_ReturnPopsTheSlotBelow :
    255 < 256 ∧
    ({ State.reset with sp := 1 }.sp.toNat ≠ 0 ∧ { State.reset with sp := 1 }.sp.toNat ≤ 16) ∧
    ({ State.reset with sp := 16 }.sp.toNat ≠ 0 ∧ { State.reset with sp := 16 }.sp.toNat ≤ 16) ∧
    State.reset.sp.toNat = 0 := by decide

theorem witness_ReturnStopsWhereThereIsNoSlot : { State.reset with sp := 17 }.sp.toNat > 16 := by decide

theorem witness_ReturnUndoesCall :
    ∃ t, { State.reset with sp := 15 }.sp.toNat < 16 ∧ exec (.call 0xFFF) { State.reset with sp := 15 } = .next t ∧
      14 ≠ { State.reset with sp := 15 }.sp.toNat :=
  ⟨_, by decide, rfl, by decide⟩

/-- Each condition met and not met. -/
theorem witness_SkipsCompareRegisters :
    let s := withV [(1, 7), (2, 7), (3, 8)]
    s.getV 1 = 7 ∧ s.getV 1 ≠ 8 ∧ s.getV 1 = s.getV 2 ∧ s.getV 1 ≠ s.getV 3 ∧ 15 < 16 := by decide

theorem witness_ImmediatesReachTheirRegister : (0xFFF#16).toNat ≤ 0xFFF := by decide

theorem witness_RandomByteIsMasked : (0x0F#8).getLsbD 4 = false ∧ (0x00#8).getLsbD 0 = false := by decide

/-- Both values of each flag: sums 255 and 256, differences 0 and 1; a destination that is not VF. -/
theorem witness_SumsAndDifferencesSetTheFlag :
    let s := withV [(1, 0xFF), (2, 1), (3, 0)]
    (1 : Reg) ≠ 15 ∧ (s.getV 1).toNat + (s.getV 2).toNat > 255 ∧ ¬ (s.getV 1).toNat + (s.getV 3).toNat > 255 ∧
    (s.getV 2).toNat > (s.getV 3).toNat ∧ ¬ (s.getV 2).toNat > (s.getV 2).toNat := by decide

theorem witness_ShiftsMoveOneBitIntoTheFlag :
    let s := withV [(1, 0x80), (2, 0x7F)]
    (1 : Reg) ≠ 15 ∧ ¬ (s.getV 1).toNat % 2 = 1 ∧ (s.getV 2).toNat % 2 = 1 ∧ (s.getV 1).toNat ≥ 128 ∧
    ¬ (s.getV 2).toNat ≥ 128 := by decide

theorem witness_ClearTurnsEveryCellOff : 255 < 256 := by decide

/-- No rows at any I, the last sprite that fits and the first that does not; a cell under it and one beside it. -/
theorem witness_DrawTogglesTheCellsUnderTheSprite :
    ((0 : Nat) = 0 ∨ (0xFFFF#16).toNat + 0 - 1 ≤ 0xFFF) ∧
    ((15 : Nat) = 0 ∨ { State.reset with i := 0xFF1 }.i.toNat + 15 - 1 ≤ 0xFFF) ∧ 15 ≤ 15 ∧
    (1 ≤ 15 ∧ { State.reset with i := 0xFF2 }.i.toNat + 15 - 1 > 0xFFF) ∧
    spriteCovers (fun _ => 0xC0) 1 62 31 63 31 ∧ ¬ spriteCovers (fun _ => 0xC0) 1 63 31 0 31 ∧ 63 < 64 ∧ 31 < 32 := by
  simp only [spriteCovers]; decide

theorem witness_DrawingTwiceRestoresTheDisplay :
    ∃ t, { State.reset with i := 0xFF1 }.i.toNat + 15 ≤ 0x1000 ∧
      exec (.drw 0 1 15) { State.reset with i := 0xFF1 } = .next t :=
  ⟨_, by decide, rfl⟩

theorem witness_KeySkipsTestTheNamedKey :
    let s := withV [(1, 15), (2, 16)]
    (s.getV 1).toNat ≤ 15 ∧ (s.getV 2).toNat > 15 ∧ 15 < 16 := by decide

/-- Only the last key, the lowest of two, and none. -/
theorem witness_AwaitKeyTakesTheLowestKey :
    ((0x8000#16).getLsbD 15 = true ∧ ∀ k < 15, (0x8000#16).getLsbD k = false) ∧
    ((0x0210#16).getLsbD 4 = true ∧ ∀ k < 4, (0x0210#16).getLsbD k = false) ∧
    (∀ k < 16, State.reset.key.getLsbD k = false) := by decide

/-- The exact sum at 0xFFF and 0x1000. -/
theorem witness_IndexArithmeticIsUnmasked :
    let s : State := { withV [(1, 1), (2, 0)] with i := 0xFFF }
    s.i.toNat + (s.getV 1).toNat > 0xFFF ∧ ¬ s.i.toNat + (s.getV 2).toNat > 0xFFF := by decide

theorem witness_BcdStoresThreeDigits :
    State.reset.mem.wf ∧ { State.reset with i := 0xFFE }.i.toNat + 2 > 0xFFF ∧
    { State.reset with i := 0xFFD }.i.toNat + 2 ≤ 0xFFF := by decide

theorem witness_BlockStoreWritesRegistersInOrder :
    State.reset.mem.wf ∧ { State.reset with i := 0xFF1 }.i.toNat + (15 : Reg).val > 0xFFF ∧
    { State.reset with i := 0xFF0 }.i.toNat + (15 : Reg).val ≤ 0xFFF ∧ (15 : Reg) ≤ 15 := by decide

theorem witness_BlockLoadReadsRegistersInOrder :
    { State.reset with i := 0xFF2 }.i.toNat + (14 : Reg).val > 0xFFF ∧
    { State.reset with i := 0xFF1 }.i.toNat + (14 : Reg).val ≤ 0xFFF ∧ (14 : Reg) ≤ 14 ∧ (14 : Reg) < 15 := by decide

theorem witness_BlockStoreThenLoadRestoresRegisters :
    let s : State := { withV [(15, 7)] with i := 0xFF0 }
    ∃ t, s.mem.wf ∧ s.i.toNat + (15 : Reg).val ≤ 0xFFF ∧ exec (.ldMemVx 15) s = .next t ∧ (15 : Reg) ≤ 15 :=
  ⟨_, by decide, by decide, rfl, by decide⟩

theorem witness_StoredWordIsFetchedNext :
    let s : State := { withV [(0, 0x62), (1, 0x77)] with i := 0xFFE }
    s.mem.wf ∧ s.fault = 0 ∧ 1 ≤ (1 : Reg).val ∧ s.i.toNat + (1 : Reg).val ≤ 0xFFF ∧
    (∃ t, exec (.ldMemVx 1) s = .next t) ∧
    (0x6277#16).toNat = (s.getV 0).toNat * 256 + (s.getV 1).toNat :=
  ⟨by decide, rfl, by decide, by decide, ⟨_, rfl⟩, by decide⟩

/-- The longest image that fits and the shortest that does not; an address inside the image and one outside. -/
theorem witness_LoadPlacesTheImage :
    (List.replicate 3585 (0 : Byte)).length > 3584 ∧ (List.replicate 3584 (0 : Byte)).length ≤ 3584 ∧
    3583 < (List.replicate 3584 (0 : Byte)).length ∧ ¬ (0x200 ≤ 0x1FF ∧ 0x1FF < 0x200 + 3584) := by
  simp only [List.length_replicate]; decide

theorem witness_RestoreReproducesTheSnapshot :
    { State.reset.storeBytes 0x300 [2, 3, 4] with sp := 1, fault := 5, faultInfo := 255 }.legal := by decide

theorem witness_KeyAndPortEvents :
    (63 < 64 ∧ 31 < 32 ∧ { State.reset with st := 1 }.st ≠ 0) ∧
    (Event.tick.replacesState = false ∧ Event.tick ≠ .step ∧ ∃ t r, event .tick State.reset = .next (t, r)) :=
  ⟨by decide, by decide, by decide, _, _, rfl⟩

end Sys2Proof.Tests
end

/-! What instructions that write PC only, or PC and the stack only, leave as it was, and how a word written as a
number is decoded. Then the proofs of the family of 40_control_flow.md. -/

namespace Sys2Proof.Machine

/-! ### Words written as numbers (30_encoding.md R70) -/

/-- A number below 65536 encodes `i` when every word of that value decodes to `i`. -/
theorem encodes_of_toNat {n : Nat} {i : Instr} (hn : n < 65536)
    (h : ∀ w : Word, w.toNat = n → decodeWord w = i) : encodes n i :=
  h _ (Nat.mod_eq_of_lt hn)

/-! ### Unrecognised words (30_encoding.md R74 to R78, R82) -/

theorem ite_eq_nop {c : Prop} [Decidable c] {a b : Instr} (ha : a ≠ .nop) :
    (if c then a else b) = .nop ↔ ¬ c ∧ b = .nop := by
  by_cases hc : c <;> simp [hc, ha]

theorem decodeFamily0_eq_nop (w : Word) : decodeFamily0 w = .nop ↔ bits w 3 0 ≠ 0x0 ∧ bits w 3 0 ≠ 0xE := by
  simp [decodeFamily0, ite_eq_nop]

theorem decodeFamily8_eq_nop (w : Word) : decodeFamily8 w = .nop ↔ 0x8 ≤ bits w 3 0 ∧ bits w 3 0 ≠ 0xE := by
  simp only [decodeFamily8, ite_eq_nop, ne_eq, reduceCtorEq, not_false_eq_true, and_true]
  omega

theorem decodeFamilyE_eq_nop (w : Word) : decodeFamilyE w = .nop ↔ bits w 3 0 ≠ 0x1 ∧ bits w 3 0 ≠ 0xE := by
  simp [decodeFamilyE, ite_eq_nop]

theorem decodeFamilyF_eq_nop (w : Word) :
    decodeFamilyF w = .nop ↔ bits w 7 0 ∉ [0x07, 0x0A, 0x15, 0x18, 0x1E, 0x29, 0x33, 0x55, 0x65] := by
  simp [decodeFamilyF, ite_eq_nop]

/-- Only the families with a second level hold unrecognised words (30_encoding.md R74). -/
theorem decodeWord_eq_nop (w : Word) :
    decodeWord w = .nop ↔
      (bits w 15 12 = 0x0 ∧ decodeFamily0 w = .nop) ∨ (bits w 15 12 = 0x8 ∧ decodeFamily8 w = .nop) ∨
      (bits w 15 12 = 0xE ∧ decodeFamilyE w = .nop) ∨ (bits w 15 12 = 0xF ∧ decodeFamilyF w = .nop) := by
  have hop : bits w 15 12 < 16 := Nat.mod_lt _ (by decide)
  simp only [decodeWord]
  generalize bits w 15 12 = op at hop ⊢
  interval_cases op <;> simp

/-! ### PC after an instruction (40_control_flow.md R91, R95) -/

theorem npc_toNat (s : State) : s.npc.toNat = (s.pc.toNat + 2) % 65536 := BitVec.toNat_add ..

theorem pcAdvanced_advance (s : State) : pcAdvanced s (advance s) := npc_toNat s

/-- A skip goes four bytes on when the condition it tests holds, and two when not. -/
theorem pcSkips_skipIf {c : Bool} {p : Prop} (h : c = true ↔ p) (s : State) : pcSkips p s (skipIf c s) := by
  constructor
  · intro hp
    have hpc : (skipIf c s).pc = s.npc + 2 := if_pos (h.2 hp)
    rw [hpc, BitVec.toNat_add, npc_toNat, Nat.mod_add_mod]
    rfl
  · intro hp
    have hpc : (skipIf c s).pc = s.npc := if_neg (mt h.1 hp)
    rw [pcAdvanced, hpc, npc_toNat]

/-! ### What stays when PC alone is written, and when PC and the stack are -/

theorem sameButPc_setPc (s : State) (target : Word) : sameButPc s { s with pc := target } :=
  ⟨⟨⟨fun _ => rfl, ⟨rfl, rfl⟩, ⟨rfl, rfl⟩, ⟨rfl, rfl⟩, ⟨rfl, rfl, rfl, rfl⟩, rfl⟩, rfl⟩, fun _ _ => rfl⟩

theorem sameButPc_advance (s : State) : sameButPc s (advance s) := sameButPc_setPc s s.npc

theorem sameButPc_skipIf (c : Bool) (s : State) : sameButPc s (skipIf c s) := sameButPc_setPc s _

theorem setPcStack_frame (s : State) (target sp : Word) (stack : Vector Word 16) :
    let t := { s with pc := target, sp := sp, stack := stack }
    sameRegistersBut [] s t ∧ t.i = s.i ∧ sameMemory s t ∧ sameTimers s t ∧ sameDisplay s t ∧ sameControl s t ∧
      t.rng = s.rng :=
  ⟨fun _ _ => rfl, rfl, fun _ => rfl, ⟨rfl, rfl⟩, ⟨rfl, rfl⟩, ⟨rfl, rfl, rfl, rfl⟩, rfl⟩

/-- What every skip does, from the condition it tests (40_control_flow.md R95 to R98). -/
theorem skips_of_exec_eq {i : Instr} {s : State} {c : Bool} {p : Prop} (he : exec i s = .next (skipIf c s))
    (h : c = true ↔ p) : ∃ t, exec i s = .next t ∧ pcSkips p s t ∧ sameButPc s t :=
  ⟨skipIf c s, he, pcSkips_skipIf h s, sameButPc_skipIf c s⟩

/-! ### The stack (10_state.md R28, R29) -/

/-- The slot at SP takes the pushed word. -/
theorem push_stack_self (a : Word) {s : State} (h : s.sp.toNat < 16) : (push a s).stack[s.sp.toNat]? = some a := by
  simp [h]

theorem push_stack_other (a : Word) (s : State) {k : Nat} (h : k ≠ s.sp.toNat) :
    (push a s).stack[k]? = s.stack[k]? := by
  rw [push_stack, Vector.getElem?_setIfInBounds_ne h.symm]

theorem push_sp_toNat (a : Word) {s : State} (h : s.sp.toNat < 16) : (push a s).sp.toNat = s.sp.toNat + 1 := by
  rw [push_sp, BitVec.toNat_add_of_lt (by simp; omega)]
  rfl

/-- CALL below depth 16 (40_control_flow.md R94). -/
theorem exec_call_of_lt (nnn : Word) {s : State} (h : s.sp.toNat < 16) :
    exec (.call nnn) s = .next { push s.npc s with pc := nnn } :=
  (execCall_eq nnn s).trans (if_neg (by omega))

/-- CALL at depth 16 (40_control_flow.md R94). -/
theorem exec_call_of_le (nnn : Word) {s : State} (h : 16 ≤ s.sp.toNat) :
    exec (.call nnn) s = .next (raise .stackOverflow s.sp.toNat s) :=
  (execCall_eq nnn s).trans (if_pos h)

/-- RET with a slot below SP (40_control_flow.md R92). -/
theorem exec_ret_of_pos {s : State} (h0 : s.sp.toNat ≠ 0) (h16 : s.sp.toNat ≤ 16) :
    exec .ret s = .next { s with sp := s.sp - 1, pc := s.stack[s.sp.toNat - 1]'(by omega) } :=
  (execRet_eq s).trans ((if_neg h0).trans (dif_pos h16))

/-- RET on the empty stack (40_control_flow.md R92). -/
theorem exec_ret_of_zero {s : State} (h : s.sp.toNat = 0) : exec .ret s = .next (raise .stackUnderflow 0 s) :=
  (execRet_eq s).trans (by rw [if_pos h, h])

/-! ### The obligations -/

/-- Settles O6: the families' second levels say which words are left over, and NOP is `advance`. -/
theorem unrecognisedWordsOnlyAdvance : Obligations.UnrecognisedWordsOnlyAdvance := by
  refine ⟨fun w => ?_, fun s => ⟨advance s, rfl, pcAdvanced_advance s, sameButPc_advance s⟩⟩
  rw [decodeWord_eq_nop, decodeFamily0_eq_nop, decodeFamily8_eq_nop, decodeFamilyE_eq_nop, decodeFamilyF_eq_nop]

/-- Settles O21: the two branches of CALL; below depth 16 the state is that of a push, with PC at the target. -/
theorem callPushesReturnAddress : Obligations.CallPushesReturnAddress := by
  intro nnn s
  refine ⟨fun hn => encodes_of_toNat (by omega) fun w hw => decode_call (by omega) (by omega), fun h => ?_,
    exec_call_of_le nnn⟩
  refine ⟨_, exec_call_of_lt nnn h, rfl, push_sp_toNat s.npc h, fun a ha => ?_, fun k => push_stack_other s.npc s,
    setPcStack_frame s ..⟩
  have hnpc : s.npc = a := BitVec.eq_of_toNat_eq (by rw [npc_toNat, ha])
  rw [← hnpc]
  exact push_stack_self _ h

/-- Settles O22: the two branches of RET that a legal SP can take. -/
theorem returnPopsTheSlotBelow : Obligations.ReturnPopsTheSlotBelow := by
  refine ⟨fun z hz => encodes_of_toNat (by omega) fun w hw => decode_ret (by omega) (by omega), fun s =>
    ⟨fun h0 h16 => ?_, exec_ret_of_zero⟩⟩
  have hsp : (s.sp - 1).toNat = s.sp.toNat - 1 := by bv_omega
  refine ⟨_, exec_ret_of_pos h0 h16, hsp, ?_, rfl, setPcStack_frame s ..⟩
  simp only [hsp]
  exact Vector.getElem?_eq_getElem _

/-- Settles O25: each skip is `skipIf` of its comparison. -/
theorem skipsCompareRegisters : Obligations.SkipsCompareRegisters := by
  intro x y kk s
  have hx := x.isLt
  have hy := y.isLt
  have hk := kk.isLt
  refine ⟨encodes_of_toNat (by omega) fun w hw => decode_seImm (by omega) (by omega) (by omega),
    encodes_of_toNat (by omega) fun w hw => decode_sneImm (by omega) (by omega) (by omega),
    fun z hz => ⟨encodes_of_toNat (by omega) fun w hw => decode_seReg (by omega) (by omega) (by omega),
      encodes_of_toNat (by omega) fun w hw => decode_sneReg (by omega) (by omega) (by omega)⟩,
    skips_of_exec_eq rfl beq_iff_eq, skips_of_exec_eq rfl bne_iff_ne,
    skips_of_exec_eq rfl beq_iff_eq, skips_of_exec_eq rfl bne_iff_ne⟩

/-- Settles O20: both jumps write PC alone. -/
theorem jumpsGoToTheirTarget : Obligations.JumpsGoToTheirTarget := by
  intro nnn s
  refine ⟨fun hn => ⟨encodes_of_toNat (by omega) fun w hw => decode_jp (by omega) (by omega),
    encodes_of_toNat (by omega) fun w hw => decode_jpV0 (by omega) (by omega)⟩,
    ⟨_, rfl, rfl, sameButPc_setPc s nnn⟩, ⟨_, rfl, ?_, sameButPc_setPc s (indexedTarget nnn s)⟩⟩
  exact BitVec.toNat_ofNat ..

end Sys2Proof.Machine

/-! What writing one register and going on to the next instruction leaves as it was. Then the proof of the family of
41_immediate_and_random.md. -/

namespace Sys2Proof.Machine

/-! ### One register or I written, then PC advanced -/

/-- A register write touches no other register, and of the rest of the state the instruction writes PC alone. -/
theorem advance_setV_frame (s : State) (x : Reg) (b : Byte) :
    sameRegistersBut [x] s (advance (s.setV x b)) ∧ pcAdvanced s (advance (s.setV x b)) ∧
      sameButVPc s (advance (s.setV x b)) := by
  refine ⟨fun r hr => ?_, pcAdvanced_advance (s.setV x b), (sameButPc_advance (s.setV x b)).1⟩
  exact getV_setV_other s b (List.ne_of_not_mem_cons hr)

theorem advance_setI_frame (s : State) (a : Word) :
    sameRegistersBut [] s (advance { s with i := a }) ∧ pcAdvanced s (advance { s with i := a }) ∧
      sameButVPcI s (advance { s with i := a }) := by
  obtain ⟨⟨hrest, -⟩, hregs⟩ := sameButPc_advance { s with i := a }
  exact ⟨hregs, pcAdvanced_advance { s with i := a }, hrest⟩

/-! ### The obligation -/

/-- Settles O26: each of the three writes its destination and advances; the sum of the add is that of bytes. -/
theorem immediatesReachTheirRegister : Obligations.ImmediatesReachTheirRegister := by
  intro x kk nnn s
  have hx := x.isLt
  have hk := kk.isLt
  refine ⟨encodes_of_toNat (by omega) fun w hw => decode_ldImm (by omega) (by omega) (by omega),
    encodes_of_toNat (by omega) fun w hw => decode_addImm (by omega) (by omega) (by omega),
    fun hn => encodes_of_toNat (by omega) fun w hw => decode_ldI (by omega) (by omega),
    ⟨_, rfl, getV_setV_self s x kk, advance_setV_frame s x kk⟩,
    ⟨_, rfl, ?_, advance_setV_frame s x (s.getV x + kk)⟩,
    ⟨_, rfl, rfl, advance_setI_frame s nnn⟩⟩
  rw [advance_getV, getV_setV_self, BitVec.toNat_add]

end Sys2Proof.Machine

/-! How the two-register words of the 8-family are decoded, and what writing a result and a flag leaves as it was. Then
the proofs of the family of 42_alu.md. -/

namespace Sys2Proof.Machine

/-! ### The words of the 8-family (30_encoding.md R76) -/

/-- The word `8xyn` encodes `i` when its top and low nibble and its register fields make it decode to `i`. -/
theorem encodes_family8 (x y : Reg) {n : Nat} (hn : n < 16) {i : Instr}
    (h : ∀ {w : Word}, w.toNat / 4096 = 0x8 → w.toNat % 16 = n → w.toNat / 256 % 16 = x.val →
      w.toNat / 16 % 16 = y.val → decodeWord w = i) :
    encodes (0x8000 + n + x.val * 256 + y.val * 16) i := by
  have hx := x.isLt
  have hy := y.isLt
  exact encodes_of_toNat (by omega) fun w hw => h (by omega) (by omega) (by omega) (by omega)

/-! ### Flags (10_state.md R25, 42_alu.md R125 to R129) -/

theorem flagIs_flagByte {c : Bool} {p : Prop} (h : c = true ↔ p) : flagIs p (flagByte c) := by
  constructor
  · intro hp
    rw [flagByte_toNat, if_pos (h.2 hp)]
  · intro hp
    rw [flagByte_toNat, if_neg (mt h.1 hp)]

theorem carryFlag_iff (a b : Byte) : carryFlag a b = true ↔ a.toNat + b.toNat > 255 := decide_eq_true_iff

theorem noBorrowFlag_iff (a b : Byte) : noBorrowFlag a b = true ↔ a.toNat > b.toNat := decide_eq_true_iff

theorem shiftedOutRight_iff (a : Byte) : shiftedOutRight a = true ↔ a.toNat % 2 = 1 := by
  rw [shiftedOutRight, BitVec.getLsbD, Nat.testBit_zero, decide_eq_true_iff]

/-- Bit 7 is the top bit of a byte. -/
theorem shiftedOutLeft_iff (a : Byte) : shiftedOutLeft a = true ↔ a.toNat ≥ 128 := by
  have ha := a.isLt
  rw [shiftedOutLeft, BitVec.getLsbD, Nat.testBit_eq_decide_div_mod_eq, decide_eq_true_iff]
  omega

/-! ### The wrapped results -/

theorem sub_toNat_eq (a b : Byte) : (a - b).toNat = (256 + a.toNat - b.toNat) % 256 := by
  have hb := b.isLt
  rw [BitVec.toNat_sub]
  congr 1
  omega

theorem shiftRight_one_toNat (a : Byte) : (a >>> 1).toNat = a.toNat / 2 := by
  rw [BitVec.toNat_ushiftRight, Nat.shiftRight_one]

theorem shiftLeft_one_toNat (a : Byte) : (a <<< 1).toNat = a.toNat * 2 % 256 := by
  rw [BitVec.toNat_shiftLeft, Nat.shiftLeft_eq, Nat.pow_one]

/-! ### A result and a flag written, then PC advanced -/

theorem advance_writeResultAndFlag_frame (s : State) (x : Reg) (b : Byte) (c : Bool) :
    let t := advance (writeResultAndFlag x b c s)
    sameRegistersBut [x, 15] s t ∧ pcAdvanced s t ∧ sameButVPc s t := by
  refine ⟨fun r hr => ?_, pcAdvanced_advance (writeResultAndFlag x b c s),
    (sameButPc_advance (writeResultAndFlag x b c s)).1⟩
  obtain ⟨hx, hf⟩ : r ≠ x ∧ r ≠ 15 := by simpa using hr
  rw [advance_getV, getV_writeResultAndFlag, if_neg hf, if_neg hx]

/-- What every operation with a flag does, from its result and the condition its flag tests: the flag is written last,
so it is in VF even when VF is the destination (42_alu.md R120). -/
theorem resultAndFlag_of_exec_eq {i : Instr} {s : State} {x : Reg} {b : Byte} {c : Bool} {n : Nat} {p : Prop}
    (he : exec i s = .next (advance (writeResultAndFlag x b c s))) (hb : b.toNat = n) (hc : c = true ↔ p) :
    ∃ t, exec i s = .next t ∧ (x ≠ 15 → (t.getV x).toNat = n) ∧ flagIs p (t.getV 15) ∧
      sameRegistersBut [x, 15] s t ∧ pcAdvanced s t ∧ sameButVPc s t := by
  refine ⟨_, he, fun hx => ?_, ?_, advance_writeResultAndFlag_frame s x b c⟩
  · rw [advance_getV, getV_writeResultAndFlag, if_neg hx, if_pos rfl, hb]
  · rw [advance_getV, getV_writeResultAndFlag, if_pos rfl]
    exact flagIs_flagByte hc

/-! ### The obligations -/

/-- Settles O28: each of the four writes its result to V[x] alone, and the result's bits are those of the operation. -/
theorem logicOperationsLeaveTheFlag : Obligations.LogicOperationsLeaveTheFlag := by
  intro x y s
  refine ⟨encodes_family8 x y (n := 0x0) (by decide) decode_ldReg,
    encodes_family8 x y (n := 0x1) (by decide) decode_orReg,
    encodes_family8 x y (n := 0x2) (by decide) decode_andReg,
    encodes_family8 x y (n := 0x3) (by decide) decode_xorReg,
    ⟨_, rfl, getV_setV_self s x (s.getV y), advance_setV_frame s x (s.getV y)⟩,
    ⟨_, rfl, fun j => ?_, advance_setV_frame s x (s.getV x ||| s.getV y)⟩,
    ⟨_, rfl, fun j => ?_, advance_setV_frame s x (s.getV x &&& s.getV y)⟩,
    ⟨_, rfl, fun j => ?_, advance_setV_frame s x (s.getV x ^^^ s.getV y)⟩⟩
  · rw [advance_getV, getV_setV_self, BitVec.getLsbD_or]
  · rw [advance_getV, getV_setV_self, BitVec.getLsbD_and]
  · rw [advance_getV, getV_setV_self, BitVec.getLsbD_xor]

/-- Settles O29: each of the three writes its wrapped result and then its flag. -/
theorem sumsAndDifferencesSetTheFlag : Obligations.SumsAndDifferencesSetTheFlag := by
  intro x y s
  exact ⟨encodes_family8 x y (n := 0x4) (by decide) decode_addReg,
    encodes_family8 x y (n := 0x5) (by decide) decode_subReg,
    encodes_family8 x y (n := 0x7) (by decide) decode_subnReg,
    resultAndFlag_of_exec_eq rfl (BitVec.toNat_add ..) (carryFlag_iff ..),
    resultAndFlag_of_exec_eq rfl (sub_toNat_eq ..) (noBorrowFlag_iff ..),
    resultAndFlag_of_exec_eq rfl (sub_toNat_eq ..) (noBorrowFlag_iff ..)⟩

/-- Settles O30: both shifts take V[x] as their operand, whatever y, and the flag is the bit shifted out of it. -/
theorem shiftsMoveOneBitIntoTheFlag : Obligations.ShiftsMoveOneBitIntoTheFlag := by
  intro x y s
  exact ⟨encodes_family8 x y (n := 0x6) (by decide) decode_shr,
    encodes_family8 x y (n := 0xE) (by decide) decode_shl,
    resultAndFlag_of_exec_eq rfl (shiftRight_one_toNat (s.getV x)) (shiftedOutRight_iff (s.getV x)),
    resultAndFlag_of_exec_eq rfl (shiftLeft_one_toNat (s.getV x)) (shiftedOutLeft_iff (s.getV x))⟩

end Sys2Proof.Machine

/-! What the sprite of DRW does to each cell and to the collision, and what writing the display leaves as it was. Then
the proofs of the family of 43_display.md. -/

namespace Sys2Proof.Machine

/-! ### The sprite in memory (43_display.md R141) -/

/-- The byte of row `k` of a sprite read from memory, for a row it has. -/
theorem readBytes_getD (m : Memory) (base : Nat) {n k : Nat} (h : k < n) :
    (readBytes m base n).getD k 0 = m.read (base + k) := by
  have hk : k < (readBytes m base n).length := by rwa [length_readBytes]
  rw [List.getD_eq_getElem _ _ hk, readBytes_getElem]

/-- The model's sprite covers a cell exactly when the sprite of the statements, with its n rows at `base` on, does: past
its last row the model's sprite reads as 0. -/
theorem rowsCover_readBytes_iff (m : Memory) (base n x0 y0 x y : Nat) :
    rowsCover (readBytes m base n) x0 y0 x y = true ↔
      spriteCovers (fun row => m.read (base + row)) n x0 y0 x y := by
  rw [rowsCover, spriteCovers, Bool.and_eq_true, decide_eq_true_iff]
  by_cases hrow : y - y0 < n
  · rw [readBytes_getD m base hrow]
    constructor
    · rintro ⟨⟨hy0, hx0, hx8⟩, hbit⟩
      exact ⟨hx0, hx8, hy0, by omega, hbit⟩
    · rintro ⟨hx0, hx8, hy0, -, hbit⟩
      exact ⟨⟨hy0, hx0, hx8⟩, hbit⟩
  · have hlen : (readBytes m base n).length ≤ y - y0 := by rw [length_readBytes]; omega
    rw [List.getD_eq_default _ _ hlen]
    constructor
    · rintro ⟨-, hbit⟩
      simp at hbit
    · rintro ⟨-, -, hy0, hyn, -⟩
      omega

/-! ### What DRW draws -/

/-- The display DRW leaves and its collision, when the sprite is in the address space. -/
def drawnCanvas (x y : Reg) (n : Nat) (s : State) : Canvas :=
  Canvas.drawRows ⟨s.disp, false⟩ (originX x s) (originY y s) (readBytes s.mem (indexBase s) n)

/-- The sprite of DRW, with its origin from V[x] and V[y] and its rows from I on, covers the cell (px, py). -/
def drwCovers (x y : Reg) (n : Nat) (s : State) (px py : Nat) : Prop :=
  spriteCovers (fun row => s.mem.read (s.i.toNat + row)) n ((s.getV x).toNat % 64) ((s.getV y).toNat % 32) px py

/-- The cells under the model's sprite are those under the sprite of DRW. -/
theorem rowsCover_iff_drwCovers (x y : Reg) (n : Nat) (s : State) (px py : Nat) :
    rowsCover (readBytes s.mem (indexBase s) n) (originX x s) (originY y s) px py = true ↔ drwCovers x y n s px py :=
  rowsCover_readBytes_iff ..

theorem get_drawnCanvas_of_covers {x y : Reg} {n : Nat} {s : State} {px py : Nat} (hx : px < 64) (hy : py < 32)
    (h : drwCovers x y n s px py) : (drawnCanvas x y n s).disp.get px py = !s.disp.get px py := by
  rw [drawnCanvas, get_drawRows _ _ _ _ _ _ hx hy, (rowsCover_iff_drwCovers ..).2 h, Bool.xor_true]

theorem get_drawnCanvas_of_not_covers {x y : Reg} {n : Nat} {s : State} {px py : Nat} (hx : px < 64) (hy : py < 32)
    (h : ¬ drwCovers x y n s px py) : (drawnCanvas x y n s).disp.get px py = s.disp.get px py := by
  rw [drawnCanvas, get_drawRows _ _ _ _ _ _ hx hy, Bool.eq_false_iff.2 (mt (rowsCover_iff_drwCovers ..).1 h),
    Bool.xor_false]

theorem hit_drawnCanvas (x y : Reg) (n : Nat) (s : State) :
    (drawnCanvas x y n s).hit = true ↔ ∃ px < 64, ∃ py < 32, drwCovers x y n s px py ∧ s.disp.get px py = true := by
  rw [drawnCanvas, hit_drawRows]
  simp only [rowsCover_iff_drwCovers, Bool.false_eq_true, false_or]

/-- DRW with a row outside the address space (43_display.md R141, 20_memory.md R53). -/
theorem exec_drw_outside (x y : Reg) {n : Nat} {s : State} (h1 : 1 ≤ n) (h2 : s.i.toNat + n - 1 > 0xFFF) :
    exec (.drw x y n) s = .next (raise .addressOutOfRange (max s.i.toNat 0x1000) s) :=
  withRange_outside h1 h2 s _

/-- DRW with all its rows in the address space (43_display.md R141). -/
theorem exec_drw_inside (x y : Reg) {n : Nat} {s : State} (h : n = 0 ∨ s.i.toNat + n - 1 ≤ 0xFFF) :
    exec (.drw x y n) s =
      .next (advance { setFlag (drawnCanvas x y n s).hit s with disp := (drawnCanvas x y n s).disp, dirty := true }) :=
  withRange_inside h s _

/-! ### The display and registers written, then PC advanced -/

/-- Of the state outside V, an instruction that writes the display writes DISP, DIRTY and PC alone. -/
theorem advance_setDisplay_frame (s : State) (v : Vector Byte 16) (d : Display) {rs : List Reg}
    (hv : sameRegistersBut rs s { s with v := v }) :
    let t := advance { s with v := v, disp := d, dirty := true }
    t.dirty = true ∧ pcAdvanced s t ∧ sameRegistersBut rs s t ∧ t.i = s.i ∧ sameMemory s t ∧ sameStack s t ∧
      sameTimers s t ∧ sameControl s t ∧ t.rng = s.rng :=
  ⟨rfl, pcAdvanced_advance s, hv, rfl, fun _ => rfl, ⟨rfl, rfl⟩, ⟨rfl, rfl⟩, ⟨rfl, rfl, rfl, rfl⟩, rfl⟩

theorem sameRegistersBut_setFlag (c : Bool) (s : State) : sameRegistersBut [15] s (setFlag c s) := by
  intro r hr
  rw [getV_setFlag, if_neg (List.ne_of_not_mem_cons hr)]

/-! ### The obligations -/

/-- Settles O31: CLS is the blank display written, with no register beside it. -/
theorem clearTurnsEveryCellOff : Obligations.ClearTurnsEveryCellOff :=
  ⟨fun z hz => encodes_of_toNat (by omega) fun w hw => decode_cls (by omega) (by omega), fun s =>
    ⟨_, rfl, get_blank, advance_setDisplay_frame s s.v Display.blank fun _ _ => rfl⟩⟩

/-- Settles O32: the two branches of the range check; inside it, each cell and the collision are those of
`drawnCanvas`, and VF is the one register written. -/
theorem drawTogglesTheCellsUnderTheSprite : Obligations.DrawTogglesTheCellsUnderTheSprite := by
  intro x y n s
  have hx := x.isLt
  have hy := y.isLt
  refine ⟨fun hn => encodes_of_toNat (by omega) fun w hw =>
      decode_drw (by omega) (by omega) (by omega) (by omega),
    exec_drw_outside x y, fun h => ?_⟩
  refine ⟨_, exec_drw_inside x y h,
    fun px hpx py hpy => ⟨get_drawnCanvas_of_covers hpx hpy, get_drawnCanvas_of_not_covers hpx hpy⟩, ?_,
    advance_setDisplay_frame s (setFlag (drawnCanvas x y n s).hit s).v _ (sameRegistersBut_setFlag _ s)⟩
  have hvf : (setFlag (drawnCanvas x y n s).hit s).getV 15 = flagByte (drawnCanvas x y n s).hit := by
    rw [getV_setFlag, if_pos rfl]
  exact hvf ▸ flagIs_flagByte (hit_drawnCanvas x y n s)

end Sys2Proof.Machine

/-! The two branches of the key skips, and what LD Vx, K does with a key pressed and with none. Then the proofs of the
family of 44_keypad.md. -/

namespace Sys2Proof.Machine

/-! ### The key skips (44_keypad.md R150, R151, R153) -/

theorem exec_skp_of_le {x : Reg} {s : State} (h : (s.getV x).toNat ≤ 15) :
    exec (.skp x) s = .next (skipIf (s.key.getLsbD (s.getV x).toNat) s) :=
  (execSkp_eq x s).trans (if_neg (by omega))

theorem exec_sknp_of_le {x : Reg} {s : State} (h : (s.getV x).toNat ≤ 15) :
    exec (.sknp x) s = .next (skipIf (!s.key.getLsbD (s.getV x).toNat) s) :=
  (execSknp_eq x s).trans (if_neg (by omega))

theorem exec_skp_of_gt {x : Reg} {s : State} (h : (s.getV x).toNat > 15) :
    exec (.skp x) s = .next (raise .keyIndexOutOfRange (s.getV x).toNat s) :=
  (execSkp_eq x s).trans (if_pos h)

theorem exec_sknp_of_gt {x : Reg} {s : State} (h : (s.getV x).toNat > 15) :
    exec (.sknp x) s = .next (raise .keyIndexOutOfRange (s.getV x).toNat s) :=
  (execSknp_eq x s).trans (if_pos h)

/-! ### The obligations -/

/-- Settles O34: with a key named, both are `skipIf` of that key or of its negation; with none, both raise. -/
theorem keySkipsTestTheNamedKey : Obligations.KeySkipsTestTheNamedKey := by
  intro x s
  have hx := x.isLt
  refine ⟨fun z hz => ⟨?_, ?_⟩, fun hle => ⟨?_, ?_⟩, fun hgt => ⟨exec_skp_of_gt hgt, exec_sknp_of_gt hgt⟩⟩
  · exact encodes_of_toNat (by omega) fun w hw => decode_skp (by omega) (by omega) (by omega)
  · exact encodes_of_toNat (by omega) fun w hw => decode_sknp (by omega) (by omega) (by omega)
  · exact skips_of_exec_eq (exec_skp_of_le hle) Iff.rfl
  · exact skips_of_exec_eq (exec_sknp_of_le hle) (Bool.not_eq_true' _).to_iff

/-- Settles O35: the scan's least pressed key is written and PC advances; with none PC comes back to where it was. -/
theorem awaitKeyTakesTheLowestKey : Obligations.AwaitKeyTakesTheLowestKey := by
  intro x s
  have hx := x.isLt
  refine ⟨encodes_of_toNat (by omega) fun w hw => decode_ldVxK (by omega) (by omega) (by omega),
    fun k0 hk hpressed hleast => ?_, execLdVxK_none x⟩
  refine ⟨_, execLdVxK_some x hk hpressed hleast, ?_, advance_setV_frame s x (BitVec.ofNat 8 k0)⟩
  rw [advance_getV, getV_setV_self]
  exact (BitVec.toNat_ofNat k0 8).trans (Nat.mod_eq_of_lt (by omega))

end Sys2Proof.Machine

/-! How the words of the F-family are decoded, what the timer transfers, the writes to I and the block writes leave as it
was, and the two branches of the checked stores. Then the proofs of the family of 45_timer_index_memory.md. -/

namespace Sys2Proof.Machine

/-! ### The words of the F-family (30_encoding.md R78) -/

/-- The word `Fxkk` encodes `i` when its top nibble, low byte and register field make it decode to `i`. -/
theorem encodes_familyF (x : Reg) {kk : Nat} (hk : kk < 256) {i : Instr}
    (h : ∀ {w : Word}, w.toNat / 4096 = 0xF → w.toNat % 256 = kk → w.toNat / 256 % 16 = x.val → decodeWord w = i) :
    encodes (0xF000 + kk + x.val * 256) i := by
  have hx := x.isLt
  exact encodes_of_toNat (by omega) fun w hw => h (by omega) (by omega) (by omega)

/-! ### The timers written, then PC advanced -/

theorem advance_setTimers_frame (s : State) (dt st : Byte) :
    let t := advance { s with dt := dt, st := st }
    sameRegistersBut [] s t ∧ t.i = s.i ∧ pcAdvanced s t ∧ sameMemory s t ∧ sameStack s t ∧ sameDisplay s t ∧
      sameControl s t ∧ t.rng = s.rng :=
  ⟨fun _ _ => rfl, rfl, pcAdvanced_advance s, fun _ => rfl, ⟨rfl, rfl⟩, ⟨rfl, rfl⟩, ⟨rfl, rfl, rfl, rfl⟩, rfl⟩

/-! ### I and the flag (45_timer_index_memory.md R163, R164) -/

theorem indexOverflowFlag_iff (a : Word) (b : Byte) : indexOverflowFlag a b = true ↔ a.toNat + b.toNat > 0xFFF :=
  decide_eq_true_iff

theorem indexSum_toNat (a : Word) (b : Byte) : (indexSum a b).toNat = (a.toNat + b.toNat) % 65536 :=
  BitVec.toNat_ofNat ..

/-- No glyph address of a byte wraps: the greatest is 0x50 + 5 * 255. -/
theorem glyphAddress_toNat (b : Byte) : (glyphAddress b).toNat = 0x050 + 5 * b.toNat := by
  have hb := b.isLt
  have hlt : 0x050 + 5 * b.toNat < 65536 := by omega
  exact (BitVec.toNat_ofNat ..).trans (Nat.mod_eq_of_lt hlt)

theorem advance_setFlag_setI_frame (s : State) (c : Bool) (a : Word) :
    let t := advance (setFlag c { s with i := a })
    sameRegistersBut [15] s t ∧ pcAdvanced s t ∧ sameButVPcI s t := by
  obtain ⟨⟨hrest, -⟩, -⟩ := sameButPc_advance (setFlag c { s with i := a })
  exact ⟨sameRegistersBut_setFlag c { s with i := a }, pcAdvanced_advance (setFlag c { s with i := a }), hrest⟩

/-! ### Bytes written to memory, then PC advanced (20_memory.md R54) -/

/-- A block write touches the bytes of its block alone, and of the rest of the state the instruction writes PC alone. -/
theorem advance_storeBytes_frame (s : State) (base : Nat) (bs : List Byte) :
    let t := advance (s.storeBytes base bs)
    sameMemoryOutside base bs.length s t ∧ sameRegistersBut [] s t ∧ t.i = s.i ∧ pcAdvanced s t ∧ sameStack s t ∧
      sameTimers s t ∧ sameDisplay s t ∧ sameControl s t ∧ t.rng = s.rng :=
  ⟨fun a ha => read_writeBytes_outside s.mem base a bs ha, fun _ _ => rfl, rfl, pcAdvanced_advance s, ⟨rfl, rfl⟩,
    ⟨rfl, rfl⟩, ⟨rfl, rfl⟩, ⟨rfl, rfl, rfl, rfl⟩, rfl⟩

/-! ### The checked stores (45_timer_index_memory.md R165, R166; 20_memory.md R53) -/

theorem exec_ldBVx_outside (x : Reg) {s : State} (h : s.i.toNat + 2 > 0xFFF) :
    exec (.ldBVx x) s = .next (raise .addressOutOfRange (max s.i.toNat 0x1000) s) :=
  withRange_outside (by decide) h s _

theorem exec_ldBVx_inside (x : Reg) {s : State} (h : s.i.toNat + 2 ≤ 0xFFF) :
    exec (.ldBVx x) s = .next (advance (s.storeBytes (indexBase s) (bcdDigits (s.getV x)))) :=
  withRange_inside (.inr h) s _

theorem exec_ldMemVx_outside {x : Reg} {s : State} (h : s.i.toNat + x.val > 0xFFF) :
    exec (.ldMemVx x) s = .next (raise .addressOutOfRange (max s.i.toNat 0x1000) s) :=
  withRange_outside (Nat.succ_pos _) h s _

theorem exec_ldMemVx_inside {x : Reg} {s : State} (h : s.i.toNat + x.val ≤ 0xFFF) :
    exec (.ldMemVx x) s = .next (advance (s.storeBytes (indexBase s) (registersUpTo x s))) :=
  withRange_inside (.inr h) s _

/-- A number no greater than a byte, as each of its decimal digits is, fits a byte. -/
theorem ofNat_toNat_of_le_byte {n : Nat} {b : Byte} (h : n ≤ b.toNat) : (BitVec.ofNat 8 n).toNat = n :=
  (BitVec.toNat_ofNat ..).trans (Nat.mod_eq_of_lt (h.trans_lt b.isLt))

/-- The three bytes LD B stores are the decimal digits of the value, hundreds first. -/
theorem read_storeBcd {m : Memory} (hm : m.wf) {base : Nat} (hb : base + 2 ≤ 0xFFF) (b : Byte) :
    let m' := writeBytes m base (bcdDigits b)
    (m'.read base).toNat = b.toNat / 100 ∧ (m'.read (base + 1)).toNat = b.toNat / 10 % 10 ∧
      (m'.read (base + 2)).toNat = b.toNat % 10 := by
  have hread : ∀ k (hk : k < 3), (writeBytes m base (bcdDigits b)).read (base + k) = (bcdDigits b)[k] := fun k hk =>
    read_writeBytes_inside hm base k (bcdDigits b) (Nat.succ_le_succ hb) hk
  refine ⟨?_, ?_, ?_⟩
  · exact (congrArg BitVec.toNat (hread 0 (by decide))).trans (ofNat_toNat_of_le_byte (b := b) (by omega))
  · exact (congrArg BitVec.toNat (hread 1 (by decide))).trans (ofNat_toNat_of_le_byte (b := b) (by omega))
  · exact (congrArg BitVec.toNat (hread 2 (by decide))).trans (ofNat_toNat_of_le_byte (b := b) (by omega))

/-- The byte LD [I] stores at I + r is V[r]. -/
theorem read_storeRegisters {s : State} (hm : s.mem.wf) {base : Nat} {x r : Reg} (hb : base + x.val ≤ 0xFFF)
    (hr : r ≤ x) : (writeBytes s.mem base (registersUpTo x s)).read (base + r.val) = s.getV r := by
  have hlen := length_registersUpTo x s
  have hlt : r.val < (registersUpTo x s).length := hlen ▸ Nat.lt_succ_of_le hr
  rw [read_writeBytes_inside hm base r.val _ (by omega) hlt, registersUpTo_getElem]

/-! ### The obligations -/

/-- Settles O37: ADD I writes the wrapped sum and the flag of the exact one; LD F writes an address that cannot wrap. -/
theorem indexArithmeticIsUnmasked : Obligations.IndexArithmeticIsUnmasked := by
  intro x s
  refine ⟨encodes_familyF x (kk := 0x1E) (by decide) decode_addIVx,
    encodes_familyF x (kk := 0x29) (by decide) decode_ldFVx,
    ⟨_, rfl, indexSum_toNat s.i (s.getV x), ?_, advance_setFlag_setI_frame s _ _⟩,
    ⟨_, rfl, glyphAddress_toNat (s.getV x), advance_setI_frame s _⟩⟩
  rw [advance_getV, getV_setFlag, if_pos rfl]
  exact flagIs_flagByte (indexOverflowFlag_iff s.i (s.getV x))

/-- Settles O38: the two branches of the range check over three bytes; inside it, the digits are those written. -/
theorem bcdStoresThreeDigits : Obligations.BcdStoresThreeDigits := by
  intro x s hm
  refine ⟨encodes_familyF x (kk := 0x33) (by decide) decode_ldBVx, exec_ldBVx_outside x, fun h => ?_⟩
  obtain ⟨hundreds, tens, ones⟩ := read_storeBcd hm h (s.getV x)
  exact ⟨_, exec_ldBVx_inside x h, hundreds, tens, ones, advance_storeBytes_frame s _ (bcdDigits (s.getV x))⟩

/-- Settles O39: the two branches of the range check over x + 1 bytes; inside it, the bytes are the registers. -/
theorem blockStoreWritesRegistersInOrder : Obligations.BlockStoreWritesRegistersInOrder := by
  intro x s hm
  refine ⟨encodes_familyF x (kk := 0x55) (by decide) decode_ldMemVx, exec_ldMemVx_outside, fun h => ?_⟩
  have hframe := advance_storeBytes_frame s (indexBase s) (registersUpTo x s)
  rw [length_registersUpTo] at hframe
  exact ⟨_, exec_ldMemVx_inside h, fun r hr => read_storeRegisters hm h hr, hframe⟩

/-- Settles O36: LD Vx, DT writes one register; the other two write one timer and keep the other. -/
theorem timerTransfersMoveOneByte : Obligations.TimerTransfersMoveOneByte := by
  intro x s
  exact ⟨encodes_familyF x (kk := 0x07) (by decide) decode_ldVxDT,
    encodes_familyF x (kk := 0x15) (by decide) decode_ldDTVx,
    encodes_familyF x (kk := 0x18) (by decide) decode_ldSTVx,
    ⟨_, rfl, getV_setV_self s x s.dt, advance_setV_frame s x s.dt⟩,
    ⟨_, rfl, rfl, rfl, advance_setTimers_frame s (s.getV x) s.st⟩,
    ⟨_, rfl, rfl, rfl, advance_setTimers_frame s s.dt (s.getV x)⟩⟩

end Sys2Proof.Machine

/-! What a tick leaves in the timers, after one and after many, that the events which neither step nor replace the state
leave the display alone, and where a cell stands on the display port. Then the proofs of the family of
60_exceptions.md. -/

namespace Sys2Proof.Machine

/-! ### The timers (60_exceptions.md R195) -/

/-- Subtraction on `Nat` stops at zero, as a timer does. -/
theorem countDown_toNat (b : Byte) : (countDown b).toNat = b.toNat - 1 := by
  unfold countDown
  split
  case isTrue h => exact BitVec.toNat_sub_of_le (BitVec.le_def.mpr h)
  case isFalse h => omega

/-- A run of ticks answers a state, with each timer down by their number or at zero. -/
theorem runEvents_replicate_tick (n : Nat) (s : State) :
    ∃ t, runEvents (List.replicate n .tick) s = .next t ∧
      t.dt.toNat = s.dt.toNat - n ∧ t.st.toNat = s.st.toNat - n := by
  induction n generalizing s with
  | zero => exact ⟨s, rfl, rfl, rfl⟩
  | succ n ih =>
    obtain ⟨t, hrun, hdt, hst⟩ := ih (tick s)
    have hsub (b : Byte) : (countDown b).toNat - n = b.toNat - (n + 1) := by rw [countDown_toNat]; omega
    exact ⟨t, (runEvents_next rfl _).trans hrun, hdt.trans (hsub s.dt), hst.trans (hsub s.st)⟩

/-! ### The display between steps (60_exceptions.md R198) -/

/-- Only a step and the events that replace the state write the display; a Load that replaces nothing is refused. -/
theorem disp_of_event {e : Event} {s t : State} {r : Reply} (hkeeps : e.replacesState = false) (hstep : e ≠ .step)
    (he : event e s = .next (t, r)) : t.disp = s.disp := by
  cases e with
  | step => exact absurd rfl hstep
  | reset seed => cases hkeeps
  | restore p => cases hkeeps
  | load seed image =>
    have hlong : image.length > 3584 := Nat.not_le.mp (of_decide_eq_false hkeeps)
    rw [event, loadEvent_refused hlong] at he
    cases he; rfl
  | tick => cases he; rfl
  | setKeys k => cases he; rfl
  | clearDirty => cases he; rfl
  | snapshot => cases he; rfl

/-- Column and row come back from the flat index. -/
theorem displayPort_cell (s : State) {x : Nat} (hx : x < 64) (y : Nat) :
    displayPort s (y * 64 + x) = if s.disp.get x y = true then 0xFFFFFFFF#32 else 0#32 := by
  have hcol : (y * 64 + x) % 64 = x := by omega
  have hrow : (y * 64 + x) / 64 = y := by omega
  rw [displayPort, hcol, hrow]
  rfl

/-! ### The obligations -/

/-- Settles O43: one tick is `countDown` of both timers; a run of ticks goes by induction on their number. -/
theorem tickCountsDownToZero : Obligations.TickCountsDownToZero :=
  ⟨fun s => ⟨rfl, countDown_toNat s.dt, countDown_toNat s.st, rfl⟩, runEvents_replicate_tick⟩

/-- Settles O47: the two events and the other ports by definition; the display, kept and read, by the lemmas above. -/
theorem keyAndPortEvents : Obligations.KeyAndPortEvents := by
  intro s k
  exact ⟨rfl, rfl, fun x hx y _ => displayPort_cell s hx y, fun _ _ _ => disp_of_event, rfl, rfl, decide_eq_true_iff⟩

end Sys2Proof.Machine

/-! What the state after a Load holds in memory. Then the proof of the family of 70_reset_and_hazards.md. -/

namespace Sys2Proof.Machine

/-! ### The image in memory (70_reset_and_hazards.md R213) -/

theorem resetWith_mem_wf (seed : Nat) (s : State) : (resetWith seed s).mem.wf := empty_wf

/-- An image of at most 3584 bytes from 0x200 on ends inside the address space, so no byte of it is lost. -/
theorem read_loadImage_inside (seed : Nat) {image : List Byte} (s : State) (hfits : image.length ≤ 3584) {k : Nat}
    (hk : k < image.length) : (loadImage seed image s).mem.read (0x200 + k) = image[k] :=
  have hend : 0x200 + image.length ≤ 4096 := by omega
  read_writeBytes_inside (resetWith_mem_wf seed s) 0x200 k image hend hk

theorem read_loadImage_outside (seed : Nat) {image : List Byte} (s : State) {a : Nat}
    (ha : ¬ (0x200 ≤ a ∧ a < 0x200 + image.length)) :
    (loadImage seed image s).mem.read a = (resetWith seed s).mem.read a :=
  read_writeBytes_outside (resetWith seed s).mem 0x200 a image ha

/-- A Load writes nothing but memory after its reset. -/
theorem loadImage_eq_resetWith_but_mem (seed : Nat) (image : List Byte) (s : State) :
    loadImage seed image s = { resetWith seed s with mem := (loadImage seed image s).mem } := rfl

/-! ### The obligation -/

/-- Settles O45: the two branches of the length check; a Load that fits is a reset and then a block write at 0x200. -/
theorem loadPlacesTheImage : Obligations.LoadPlacesTheImage := by
  intro seed image s
  refine ⟨fun hlong => ?_, fun hfits => ?_⟩
  · rw [event, loadEvent_refused hlong]
  · refine ⟨loadImage seed image s, ?_, fun k hk => read_loadImage_inside seed s hfits hk,
      fun a ha => read_loadImage_outside seed s ha, loadImage_eq_resetWith_but_mem seed image s⟩
    rw [event, loadEvent_loaded hfits]

end Sys2Proof.Machine

/-! The words of each format of the encoder as numbers, and the masks of the opcode map as conditions on fields. Then
the proofs of the family of 30_encoding.md. -/

namespace Sys2Proof.Machine

/-! ### The encoder's formats (30_encoding.md R73)

Each lemma takes what the decoder makes of any word with the fields given, in the order in which the `decode_` lemmas
of that format take them. -/

theorem decodeWord_wordA {op : Nat} (hop : op ≤ 15) {nnn : Word} (hfits : addressFits nnn = true) {i : Instr}
    (h : ∀ {w : Word}, w.toNat / 4096 = op → w.toNat % 4096 = nnn.toNat → decodeWord w = i) :
    decodeWord (wordA op nnn) = i := by
  have hle : nnn.toNat ≤ 0xFFF := of_decide_eq_true hfits
  have hw := wordA_toNat hop hle
  exact h (by omega) (by omega)

theorem decodeWord_wordXK {op : Nat} (hop : op ≤ 15) (x : Reg) (kk : Byte) {i : Instr}
    (h : ∀ {w : Word}, w.toNat / 4096 = op → w.toNat / 256 % 16 = x.val → w.toNat % 256 = kk.toNat →
      decodeWord w = i) :
    decodeWord (wordXK op x kk.toNat) = i := by
  have hx := x.isLt
  have hk := kk.isLt
  have hw := wordXK_toNat (x := x) hop (Nat.le_of_lt_succ hk)
  exact h (by omega) (by omega) (by omega)

/-- The words of the E-family, selected by their low nibble (30_encoding.md R77). -/
theorem decodeWord_wordXE (x : Reg) {kk : Nat} (hk : kk ≤ 255) {i : Instr}
    (h : ∀ {w : Word}, w.toNat / 4096 = 0xE → w.toNat % 16 = kk % 16 → w.toNat / 256 % 16 = x.val →
      decodeWord w = i) :
    decodeWord (wordXK 0xE x kk) = i := by
  have hx := x.isLt
  have hw := wordXK_toNat (op := 0xE) (x := x) (by decide) hk
  exact h (by omega) (by omega) (by omega)

/-- The words of the F-family, selected by their low byte (30_encoding.md R78). -/
theorem decodeWord_wordXF (x : Reg) {kk : Nat} (hk : kk ≤ 255) {i : Instr}
    (h : ∀ {w : Word}, w.toNat / 4096 = 0xF → w.toNat % 256 = kk → w.toNat / 256 % 16 = x.val → decodeWord w = i) :
    decodeWord (wordXK 0xF x kk) = i := by
  have hx := x.isLt
  have hw := wordXK_toNat (op := 0xF) (x := x) (by decide) hk
  exact h (by omega) (by omega) (by omega)

theorem decodeWord_nibbles {op n : Nat} (hop : op ≤ 15) (hn : n ≤ 15) (x y : Reg) {i : Instr}
    (h : ∀ {w : Word}, w.toNat / 4096 = op → w.toNat / 256 % 16 = x.val → w.toNat / 16 % 16 = y.val →
      w.toNat % 16 = n → decodeWord w = i) :
    decodeWord (nibbles op x.val y.val n) = i := by
  have hx := x.isLt
  have hy := y.isLt
  have hw := nibbles_toNat hop (Nat.le_of_lt_succ hx) (Nat.le_of_lt_succ hy) hn
  exact h (by omega) (by omega) (by omega) (by omega)

/-- The words of the 8-family, selected by their low nibble (30_encoding.md R76). -/
theorem decodeWord_nibbles8 {n : Nat} (hn : n ≤ 15) (x y : Reg) {i : Instr}
    (h : ∀ {w : Word}, w.toNat / 4096 = 0x8 → w.toNat % 16 = n → w.toNat / 256 % 16 = x.val →
      w.toNat / 16 % 16 = y.val → decodeWord w = i) :
    decodeWord (nibbles 0x8 x.val y.val n) = i :=
  decodeWord_nibbles (by decide) hn x y fun hop hx hy hs => h hop hs hx hy

/-! ### Operands in range (30_encoding.md R72) -/

theorem addressFits_fieldNNN (w : Word) : addressFits (fieldNNN w) = true := by
  have hlt : bits w 11 0 < 4096 := Nat.mod_lt _ (by decide)
  have hval : (fieldNNN w).toNat = bits w 11 0 := (BitVec.toNat_ofNat ..).trans (Nat.mod_eq_of_lt (by omega))
  exact decide_eq_true (by omega)

theorem heightFits_fieldN (w : Word) : heightFits (fieldN w) = true :=
  decide_eq_true (Nat.le_of_lt_succ (Nat.mod_lt _ (by decide)))

/-! ### Rows of the opcode map (30_encoding.md R80)

A row whose mask is F000, F00F or F0FF fixes the top nibble, and the low nibble or the low byte with it. -/

theorem op_of_maskF000 {w m : Word} (h : w &&& 0xF000#16 = m) : w.toNat / 4096 = m.toNat / 4096 := by
  rw [← h, and_0xF000_toNat]
  omega

theorem op_of_maskF00F {w m : Word} (h : w &&& 0xF00F#16 = m) : w.toNat / 4096 = m.toNat / 4096 := by
  rw [← h, and_0xF00F_toNat]
  omega

theorem nibble_of_maskF00F {w m : Word} (h : w &&& 0xF00F#16 = m) : w.toNat % 16 = m.toNat % 16 := by
  rw [← h, and_0xF00F_toNat]
  omega

theorem op_of_maskF0FF {w m : Word} (h : w &&& 0xF0FF#16 = m) : w.toNat / 4096 = m.toNat / 4096 := by
  rw [← h, and_0xF0FF_toNat]
  omega

theorem byte_of_maskF0FF {w m : Word} (h : w &&& 0xF0FF#16 = m) : w.toNat % 256 = m.toNat % 256 := by
  rw [← h, and_0xF0FF_toNat]
  omega

/-- A nibble of a word by shift and mask. -/
theorem nibble_shift_mask (w : Word) (k : Nat) :
    (Fin.ofNat 16 ((w >>> k) &&& 0xF#16).toNat : Reg).val = w.toNat / 2 ^ k % 16 := by
  rw [Fin.val_ofNat, (and_low_toNat _).1, BitVec.toNat_ushiftRight, Nat.shiftRight_eq_div_pow, Nat.mod_mod]

theorem byte_mask (w : Word) : (BitVec.ofNat 8 (w &&& 0xFF#16).toNat).toNat = w.toNat % 256 := by
  rw [BitVec.toNat_ofNat, (and_low_toNat w).2.1, Nat.mod_mod]

/-! ### Two words of one instruction (30_encoding.md R79) -/

theorem encodes_decodeWord {m n : Nat} {i : Instr} (hm : encodes m i) (hn : encodes n i) :
    encodes n (decodeWord (BitVec.ofNat 16 m)) :=
  hn.trans hm.symm

theorem encodes_seReg (x y : Reg) {z : Nat} (hz : z < 16) :
    encodes (0x5000 + x.val * 256 + y.val * 16 + z) (.seReg x y) := by
  have hx := x.isLt
  have hy := y.isLt
  exact encodes_of_toNat (by omega) fun w hw => decode_seReg (by omega) (by omega) (by omega)

theorem encodes_sneReg (x y : Reg) {z : Nat} (hz : z < 16) :
    encodes (0x9000 + x.val * 256 + y.val * 16 + z) (.sneReg x y) := by
  have hx := x.isLt
  have hy := y.isLt
  exact encodes_of_toNat (by omega) fun w hw => decode_sneReg (by omega) (by omega) (by omega)

/-- The word `Exkk` encodes `i` when its top and low nibble and its register field make it decode to `i`. -/
theorem encodes_familyE (x : Reg) {kk : Nat} (hk : kk < 256) {i : Instr}
    (h : ∀ {w : Word}, w.toNat / 4096 = 0xE → w.toNat % 16 = kk % 16 → w.toNat / 256 % 16 = x.val →
      decodeWord w = i) : encodes (0xE000 + kk + x.val * 256) i := by
  have hx := x.isLt
  exact encodes_of_toNat (by omega) fun w hw => h (by omega) (by omega) (by omega)

/-! ### The obligations -/

/-- Settles O2: an instruction's format gives back its selector and each of its operands. -/
theorem decodeInvertsEncode : Obligations.DecodeInvertsEncode := by
  intro i hwf
  cases i with
  | cls => exact decode_cls rfl rfl
  | ret => exact decode_ret rfl rfl
  | nop => rfl
  | jp nnn => exact decodeWord_wordA (by decide) hwf decode_jp
  | call nnn => exact decodeWord_wordA (by decide) hwf decode_call
  | ldI nnn => exact decodeWord_wordA (by decide) hwf decode_ldI
  | jpV0 nnn => exact decodeWord_wordA (by decide) hwf decode_jpV0
  | seImm x kk => exact decodeWord_wordXK (by decide) x kk decode_seImm
  | sneImm x kk => exact decodeWord_wordXK (by decide) x kk decode_sneImm
  | ldImm x kk => exact decodeWord_wordXK (by decide) x kk decode_ldImm
  | addImm x kk => exact decodeWord_wordXK (by decide) x kk decode_addImm
  | rnd x kk => exact decodeWord_wordXK (by decide) x kk decode_rnd
  | seReg x y => exact decodeWord_nibbles (by decide) (by decide) x y fun hop hx hy _ => decode_seReg hop hx hy
  | sneReg x y => exact decodeWord_nibbles (by decide) (by decide) x y fun hop hx hy _ => decode_sneReg hop hx hy
  | drw x y n => exact decodeWord_nibbles (by decide) (of_decide_eq_true hwf) x y decode_drw
  | ldReg x y => exact decodeWord_nibbles8 (by decide) x y decode_ldReg
  | orReg x y => exact decodeWord_nibbles8 (by decide) x y decode_orReg
  | andReg x y => exact decodeWord_nibbles8 (by decide) x y decode_andReg
  | xorReg x y => exact decodeWord_nibbles8 (by decide) x y decode_xorReg
  | addReg x y => exact decodeWord_nibbles8 (by decide) x y decode_addReg
  | subReg x y => exact decodeWord_nibbles8 (by decide) x y decode_subReg
  | shr x y => exact decodeWord_nibbles8 (by decide) x y decode_shr
  | subnReg x y => exact decodeWord_nibbles8 (by decide) x y decode_subnReg
  | shl x y => exact decodeWord_nibbles8 (by decide) x y decode_shl
  | skp x => exact decodeWord_wordXE x (by decide) decode_skp
  | sknp x => exact decodeWord_wordXE x (by decide) decode_sknp
  | ldVxDT x => exact decodeWord_wordXF x (by decide) decode_ldVxDT
  | ldVxK x => exact decodeWord_wordXF x (by decide) decode_ldVxK
  | ldDTVx x => exact decodeWord_wordXF x (by decide) decode_ldDTVx
  | ldSTVx x => exact decodeWord_wordXF x (by decide) decode_ldSTVx
  | addIVx x => exact decodeWord_wordXF x (by decide) decode_addIVx
  | ldFVx x => exact decodeWord_wordXF x (by decide) decode_ldFVx
  | ldBVx x => exact decodeWord_wordXF x (by decide) decode_ldBVx
  | ldMemVx x => exact decodeWord_wordXF x (by decide) decode_ldMemVx
  | ldVxMem x => exact decodeWord_wordXF x (by decide) decode_ldVxMem

/-- Settles O3: only the addresses and the sprite height can be out of range, and their fields have 12 and 4 bits. -/
theorem decodedInstructionIsWellFormed : Obligations.DecodedInstructionIsWellFormed := by
  intro w
  apply decodeWord_all (P := fun i => i.wellFormed = true) w
  case h_jp | h_call | h_ldI | h_jpV0 => exact addressFits_fieldNNN w
  case h_drw => exact heightFits_fieldN w
  all_goals rfl

/-- Settles O4: each row's mask fixes its selector, and the fields by shift and mask are those of the word. -/
theorem decoderFollowsOpcodeMap : Obligations.DecoderFollowsOpcodeMap := by
  intro w x y n kk nnn
  have hx : w.toNat / 256 % 16 = x.val := (nibble_shift_mask w 8).symm
  have hy : w.toNat / 16 % 16 = y.val := (nibble_shift_mask w 4).symm
  have hn : w.toNat % 16 = n := (and_low_toNat w).1.symm
  have hkk : w.toNat % 256 = kk.toNat := (byte_mask w).symm
  have hnnn : w.toNat % 4096 = nnn.toNat := (and_low_toNat w).2.2.symm
  exact ⟨fun h => decode_cls (op_of_maskF00F h) (nibble_of_maskF00F h),
    fun h => decode_ret (op_of_maskF00F h) (nibble_of_maskF00F h),
    fun h => decode_jp (op_of_maskF000 h) hnnn,
    fun h => decode_call (op_of_maskF000 h) hnnn,
    fun h => decode_seImm (op_of_maskF000 h) hx hkk,
    fun h => decode_sneImm (op_of_maskF000 h) hx hkk,
    fun h => decode_seReg (op_of_maskF000 h) hx hy,
    fun h => decode_ldImm (op_of_maskF000 h) hx hkk,
    fun h => decode_addImm (op_of_maskF000 h) hx hkk,
    fun h => decode_ldReg (op_of_maskF00F h) (nibble_of_maskF00F h) hx hy,
    fun h => decode_orReg (op_of_maskF00F h) (nibble_of_maskF00F h) hx hy,
    fun h => decode_andReg (op_of_maskF00F h) (nibble_of_maskF00F h) hx hy,
    fun h => decode_xorReg (op_of_maskF00F h) (nibble_of_maskF00F h) hx hy,
    fun h => decode_addReg (op_of_maskF00F h) (nibble_of_maskF00F h) hx hy,
    fun h => decode_subReg (op_of_maskF00F h) (nibble_of_maskF00F h) hx hy,
    fun h => decode_shr (op_of_maskF00F h) (nibble_of_maskF00F h) hx hy,
    fun h => decode_subnReg (op_of_maskF00F h) (nibble_of_maskF00F h) hx hy,
    fun h => decode_shl (op_of_maskF00F h) (nibble_of_maskF00F h) hx hy,
    fun h => decode_sneReg (op_of_maskF000 h) hx hy,
    fun h => decode_ldI (op_of_maskF000 h) hnnn,
    fun h => decode_jpV0 (op_of_maskF000 h) hnnn,
    fun h => decode_rnd (op_of_maskF000 h) hx hkk,
    fun h => decode_drw (op_of_maskF000 h) hx hy hn,
    fun h => decode_skp (op_of_maskF00F h) (nibble_of_maskF00F h) hx,
    fun h => decode_sknp (op_of_maskF00F h) (nibble_of_maskF00F h) hx,
    fun h => decode_ldVxDT (op_of_maskF0FF h) (byte_of_maskF0FF h) hx,
    fun h => decode_ldVxK (op_of_maskF0FF h) (byte_of_maskF0FF h) hx,
    fun h => decode_ldDTVx (op_of_maskF0FF h) (byte_of_maskF0FF h) hx,
    fun h => decode_ldSTVx (op_of_maskF0FF h) (byte_of_maskF0FF h) hx,
    fun h => decode_addIVx (op_of_maskF0FF h) (byte_of_maskF0FF h) hx,
    fun h => decode_ldFVx (op_of_maskF0FF h) (byte_of_maskF0FF h) hx,
    fun h => decode_ldBVx (op_of_maskF0FF h) (byte_of_maskF0FF h) hx,
    fun h => decode_ldMemVx (op_of_maskF0FF h) (byte_of_maskF0FF h) hx,
    fun h => decode_ldVxMem (op_of_maskF0FF h) (byte_of_maskF0FF h) hx⟩

/-- Settles O5: the word with ignored bits set and the canonical word decode to one and the same instruction. -/
theorem ignoredBitsAreIgnored : Obligations.IgnoredBitsAreIgnored := by
  refine ⟨fun z hz => ⟨?_, ?_⟩, fun x hx y hy z hz => ?_⟩
  · exact encodes_of_toNat (by omega) fun w hw => decode_cls (by omega) (by omega)
  · exact encodes_of_toNat (by omega) fun w hw => decode_ret (by omega) (by omega)
  · obtain ⟨x, rfl⟩ : ∃ r : Reg, r.val = x := ⟨⟨x, hx⟩, rfl⟩
    obtain ⟨y, rfl⟩ : ∃ r : Reg, r.val = y := ⟨⟨y, hy⟩, rfl⟩
    refine ⟨encodes_decodeWord (encodes_seReg x y (z := 0) (by decide)) (encodes_seReg x y hz),
      encodes_decodeWord (encodes_sneReg x y (z := 0) (by decide)) (encodes_sneReg x y hz), ?_, ?_⟩
    · refine encodes_decodeWord (encodes_familyE x (kk := 0x9E) (by decide) decode_skp) ?_
      exact encodes_of_toNat (by omega) fun w hw => decode_skp (by omega) (by omega) (by omega)
    · refine encodes_decodeWord (encodes_familyE x (kk := 0xA1) (by decide) decode_sknp) ?_
      exact encodes_of_toNat (by omega) fun w hw => decode_sknp (by omega) (by omega) (by omega)

/-- Settles O1: the decoder run on each of the eighteen words. -/
theorem wordsOfEveryFamilyDecode : Obligations.WordsOfEveryFamilyDecode := by
  unfold Obligations.WordsOfEveryFamilyDecode encodes
  decide

end Sys2Proof.Machine

/-! All that an instruction, and then a step, can do: raise a condition, complete, or stop for want of a stack slot.
Then the proofs about the step, and the rules over all instructions. -/

namespace Sys2Proof.Machine

/-! ### The block load and the wait for a key, branch by branch -/

/-- LD Vx, [I] past the end of the address space (45_timer_index_memory.md R167). -/
theorem exec_ldVxMem_outside {x : Reg} {s : State} (h : s.i.toNat + x.val > 0xFFF) :
    exec (.ldVxMem x) s = .next (raise .addressOutOfRange (max s.i.toNat 0x1000) s) :=
  withRange_outside (Nat.succ_pos _) h s _

/-- The state with V[0] to V[x] loaded from I on. -/
def blockLoaded (x : Reg) (s : State) : State :=
  { s with v := loadRegs s.v 0 (readBytes s.mem (indexBase s) (x.val + 1)) }

theorem getV_blockLoaded_of_le {x r : Reg} (s : State) (h : r ≤ x) :
    (blockLoaded x s).getV r = s.mem.read (s.i.toNat + r.val) := by
  have hlen := length_readBytes s.mem (indexBase s) (x.val + 1)
  have hle : r.val ≤ x.val := h
  have hin : 0 ≤ r.val ∧ r.val - 0 < (readBytes s.mem (indexBase s) (x.val + 1)).length := by omega
  exact (loadRegs_getElem _ s.v 0 r.val r.isLt).trans ((dif_pos hin).trans (readBytes_getElem ..))

theorem getV_blockLoaded_of_lt {x r : Reg} (s : State) (h : x < r) : (blockLoaded x s).getV r = s.getV r := by
  have hlen := length_readBytes s.mem (indexBase s) (x.val + 1)
  have hlt : x.val < r.val := h
  exact (loadRegs_getElem _ s.v 0 r.val r.isLt).trans (dif_neg (by omega))

/-- LD Vx, [I] inside the address space (45_timer_index_memory.md R167). -/
theorem exec_ldVxMem_inside {x : Reg} {s : State} (h : s.i.toNat + x.val ≤ 0xFFF) :
    exec (.ldVxMem x) s = .next (advance (blockLoaded x s)) :=
  withRange_inside (.inr h) s _

theorem exec_ldVxK_of_key_eq_zero (x : Reg) {s : State} (h : s.key = 0) : exec (.ldVxK x) s = .next s :=
  execLdVxK_none x fun k _ => by rw [h]; exact BitVec.getLsbD_zero

/-- With a key pressed the scan finds one (44_keypad.md R152). -/
theorem exec_ldVxK_of_key_ne_zero (x : Reg) {s : State} (h : s.key ≠ 0) :
    ∃ k, exec (.ldVxK x) s = .next (advance (s.setV x (BitVec.ofNat 8 k))) := by
  cases hscan : firstKey s 0 Config.numKeys with
  | some k => exact ⟨k, by simp only [exec, execLdVxK, hscan]⟩
  | none =>
    have hoff := (firstKey_eq_none s 0 16).1 hscan
    have hzero : s.key = 0 := BitVec.eq_of_getLsbD_eq fun k hk =>
      (hoff k (Nat.zero_le k) (by omega)).trans BitVec.getLsbD_zero.symm
    exact absurd hzero h

/-! ### What an instruction can do -/

/-- The conditions an instruction raises, when, and with which detail (60_exceptions.md R180, R181). -/
inductive Raises (s : State) : Instr → Condition → Nat → Prop
  | ret (h : s.sp.toNat = 0) : Raises s .ret .stackUnderflow 0
  | call (nnn : Word) (h : 16 ≤ s.sp.toNat) : Raises s (.call nnn) .stackOverflow s.sp.toNat
  | drw (x y : Reg) {n : Nat} (h1 : 1 ≤ n) (h2 : s.i.toNat + n - 1 > 0xFFF) :
      Raises s (.drw x y n) .addressOutOfRange (max s.i.toNat 0x1000)
  | ldBVx (x : Reg) (h : s.i.toNat + 2 > 0xFFF) : Raises s (.ldBVx x) .addressOutOfRange (max s.i.toNat 0x1000)
  | ldMemVx {x : Reg} (h : s.i.toNat + x.val > 0xFFF) :
      Raises s (.ldMemVx x) .addressOutOfRange (max s.i.toNat 0x1000)
  | ldVxMem {x : Reg} (h : s.i.toNat + x.val > 0xFFF) :
      Raises s (.ldVxMem x) .addressOutOfRange (max s.i.toNat 0x1000)
  | skp {x : Reg} (h : (s.getV x).toNat > 15) : Raises s (.skp x) .keyIndexOutOfRange (s.getV x).toNat
  | sknp {x : Reg} (h : (s.getV x).toNat > 15) : Raises s (.sknp x) .keyIndexOutOfRange (s.getV x).toNat

/-- The state `t` an instruction gives when it raises nothing. The instructions of the last arm have one outcome, which
`exec` computes. -/
def Completes (s t : State) : Instr → Prop
  | .ret => s.sp.toNat ≠ 0 ∧ ∃ target, s.stack[s.sp.toNat - 1]? = some target ∧
      t = { s with sp := s.sp - 1, pc := target }
  | .call nnn => s.sp.toNat < 16 ∧ t = { push s.npc s with pc := nnn }
  | .drw x y n =>
      t = advance { setFlag (drawnCanvas x y n s).hit s with disp := (drawnCanvas x y n s).disp, dirty := true }
  | .skp x => t = skipIf (s.key.getLsbD (s.getV x).toNat) s
  | .sknp x => t = skipIf (!s.key.getLsbD (s.getV x).toNat) s
  | .ldVxK x => (s.key = 0 ∧ t = s) ∨ (s.key ≠ 0 ∧ ∃ k, t = advance (s.setV x (BitVec.ofNat 8 k)))
  | .ldBVx x => s.i.toNat + 2 ≤ 0xFFF ∧ t = advance (s.storeBytes (indexBase s) (bcdDigits (s.getV x)))
  | .ldMemVx x => s.i.toNat + x.val ≤ 0xFFF ∧ t = advance (s.storeBytes (indexBase s) (registersUpTo x s))
  | .ldVxMem x => t = advance (blockLoaded x s)
  | i => exec i s = .next t

theorem Raises.exec_eq {s : State} {i : Instr} {c : Condition} {info : Nat} (h : Raises s i c info) :
    exec i s = .next (raise c info s) := by
  cases h with
  | ret h => exact exec_ret_of_zero h
  | call nnn h => exact exec_call_of_le nnn h
  | drw x y h1 h2 => exact exec_drw_outside x y h1 h2
  | ldBVx x h => exact exec_ldBVx_outside x h
  | ldMemVx h => exact exec_ldMemVx_outside h
  | ldVxMem h => exact exec_ldVxMem_outside h
  | skp h => exact exec_skp_of_gt h
  | sknp h => exact exec_sknp_of_gt h

/-- What `exec` answers: the latch of a raised condition, the state of a completed instruction, or the model's one fault
(log entry 10). -/
def Answers (i : Instr) (s : State) : Prop :=
  (∃ c info, Raises s i c info) ∨ (∃ t, Completes s t i ∧ exec i s = .next t) ∨
    (i = .ret ∧ 16 < s.sp.toNat ∧ exec i s = .fault .noSuchStackSlot)

theorem answers_of_raises {i : Instr} {s : State} {c : Condition} {info : Nat} (h : Raises s i c info) : Answers i s :=
  .inl ⟨c, info, h⟩

theorem answers_of_completes {i : Instr} {s t : State} (h : Completes s t i) (he : exec i s = .next t) : Answers i s :=
  .inr (.inl ⟨t, h, he⟩)

theorem answers_ret (s : State) : Answers .ret s := by
  by_cases h0 : s.sp.toNat = 0
  · exact answers_of_raises (.ret h0)
  · by_cases h16 : s.sp.toNat ≤ 16
    · exact answers_of_completes ⟨h0, _, Vector.getElem?_eq_getElem (by omega), rfl⟩ (exec_ret_of_pos h0 h16)
    · exact .inr (.inr ⟨rfl, by omega, (execRet_eq s).trans (by rw [if_neg h0, dif_neg h16])⟩)

theorem answers_ldVxK (x : Reg) (s : State) : Answers (.ldVxK x) s := by
  by_cases h : s.key = 0
  · exact answers_of_completes (.inl ⟨h, rfl⟩) (exec_ldVxK_of_key_eq_zero x h)
  · obtain ⟨k, hk⟩ := exec_ldVxK_of_key_ne_zero x h
    exact answers_of_completes (.inr ⟨h, k, rfl⟩) hk

/-- All that an instruction can do. -/
theorem exec_answers (i : Instr) (s : State) : Answers i s := by
  cases i with
  | ret => exact answers_ret s
  | ldVxK x => exact answers_ldVxK x s
  | call nnn =>
    rcases Nat.lt_or_ge s.sp.toNat 16 with h | h
    · exact answers_of_completes ⟨h, rfl⟩ (exec_call_of_lt nnn h)
    · exact answers_of_raises (.call nnn h)
  | drw x y n =>
    by_cases h : 1 ≤ n ∧ s.i.toNat + n - 1 > 0xFFF
    · exact answers_of_raises (.drw x y h.1 h.2)
    · exact answers_of_completes rfl (exec_drw_inside x y (by omega))
  | ldBVx x =>
    rcases Nat.lt_or_ge 0xFFF (s.i.toNat + 2) with h | h
    · exact answers_of_raises (.ldBVx x h)
    · exact answers_of_completes ⟨h, rfl⟩ (exec_ldBVx_inside x h)
  | ldMemVx x =>
    rcases Nat.lt_or_ge 0xFFF (s.i.toNat + x.val) with h | h
    · exact answers_of_raises (.ldMemVx h)
    · exact answers_of_completes ⟨h, rfl⟩ (exec_ldMemVx_inside h)
  | ldVxMem x =>
    rcases Nat.lt_or_ge 0xFFF (s.i.toNat + x.val) with h | h
    · exact answers_of_raises (.ldVxMem h)
    · exact answers_of_completes rfl (exec_ldVxMem_inside h)
  | skp x =>
    rcases Nat.lt_or_ge 15 (s.getV x).toNat with h | h
    · exact answers_of_raises (.skp h)
    · exact answers_of_completes rfl (exec_skp_of_le h)
  | sknp x =>
    rcases Nat.lt_or_ge 15 (s.getV x).toNat with h | h
    · exact answers_of_raises (.sknp h)
    · exact answers_of_completes rfl (exec_sknp_of_le h)
  | _ => exact answers_of_completes rfl rfl

/-- An instruction that answers a next state has raised a condition or completed. -/
theorem raises_or_completes {i : Instr} {s t : State} (h : exec i s = .next t) :
    (∃ c info, Raises s i c info ∧ t = raise c info s) ∨ Completes s t i := by
  obtain ⟨c, info, hr⟩ | ⟨t', hc, he⟩ | ⟨-, -, he⟩ := exec_answers i s
  · rw [hr.exec_eq] at h
    exact .inl ⟨c, info, hr, (Host.Outcome.next.inj h).symm⟩
  · rw [he] at h
    exact .inr (Host.Outcome.next.inj h ▸ hc)
  · rw [he] at h
    cases h

/-- With SP at most 16 every instruction answers a next state (10_state.md R28). -/
theorem exec_next_of_sp_le {s : State} (h : s.sp.toNat ≤ 16) (i : Instr) : ∃ t, exec i s = .next t := by
  obtain ⟨c, info, hr⟩ | ⟨t, -, he⟩ | ⟨-, hsp, -⟩ := exec_answers i s
  · exact ⟨_, hr.exec_eq⟩
  · exact ⟨t, he⟩
  · omega

theorem Condition.code_ne_zero (c : Condition) : c.code ≠ 0 := by
  cases c <;> decide

/-- No instruction that completes writes OPCODE, KEY or the latch. -/
theorem Completes.sameControl {i : Instr} {s t : State} (h : Completes s t i) : sameControl s t := by
  cases i with
  | ret => obtain ⟨-, _, -, rfl⟩ := h; exact ⟨rfl, rfl, rfl, rfl⟩
  | ldVxK x => obtain ⟨-, rfl⟩ | ⟨-, _, rfl⟩ := h <;> exact ⟨rfl, rfl, rfl, rfl⟩
  | call _ | ldBVx _ | ldMemVx _ => obtain ⟨-, rfl⟩ := h; exact ⟨rfl, rfl, rfl, rfl⟩
  | _ => cases h; exact ⟨rfl, rfl, rfl, rfl⟩

/-- From a state without a latched fault, a latched one tells that the instruction raised it. -/
theorem raises_of_latched {i : Instr} {s t : State} (hs : s.fault = 0) (h : exec i s = .next t) (ht : t.fault ≠ 0) :
    ∃ c info, Raises s i c info ∧ t = raise c info s := by
  obtain hr | hc := raises_or_completes h
  · exact hr
  · obtain ⟨-, -, hf, -⟩ := hc.sameControl
    exact absurd (hf.trans hs) ht

/-- An instruction that leaves no fault latched has completed. -/
theorem completes_of_not_latched {i : Instr} {s t : State} (h : exec i s = .next t) (ht : t.fault = 0) :
    Completes s t i := by
  obtain ⟨c, info, -, rfl⟩ | hc := raises_or_completes h
  · exact absurd ht c.code_ne_zero
  · exact hc

/-! ### What a step can do (40_control_flow.md R90) -/

theorem step_of_halted {s : State} (h : s.fault ≠ 0) : step s = .next s := (step_eq s).trans (if_pos h)

theorem step_of_fetch_fault {s : State} (h0 : s.fault = 0) (hpc : s.pc.toNat > 0xFFE) :
    step s = .next (raise .addressOutOfRange (max s.pc.toNat 0x1000) s) :=
  (step_eq s).trans ((if_neg (not_not.2 h0)).trans (if_pos hpc))

theorem step_of_fetch {s : State} (h0 : s.fault = 0) (hpc : s.pc.toNat ≤ 0xFFE) :
    step s = exec (decodeWord (fetchWord s)) (latchOpcode (fetchWord s) s) :=
  (step_eq s).trans ((if_neg (not_not.2 h0)).trans (if_neg (Nat.not_lt.2 hpc)))

/-- The word fetched is the one whose high byte stands at PC and whose low byte stands after it (20_memory.md R50). -/
theorem step_of_fetch_word {s : State} {w : Word} (h0 : s.fault = 0) (hpc : s.pc.toNat ≤ 0xFFE)
    (hw : w.toNat = (s.mem.read s.pc.toNat).toNat * 256 + (s.mem.read (s.pc.toNat + 1)).toNat) :
    step s = exec (decodeWord w) { s with opcode := w } := by
  have hfetch : fetchWord s = w := BitVec.eq_of_toNat_eq ((fetchWord_toNat s).trans hw.symm)
  rw [step_of_fetch h0 hpc, hfetch]
  rfl

theorem step_next_of_sp_le {s : State} (h : s.sp.toNat ≤ 16) : ∃ t, step s = .next t := by
  by_cases h0 : s.fault = 0
  · rcases Nat.lt_or_ge 0xFFE s.pc.toNat with hpc | hpc
    · exact ⟨_, step_of_fetch_fault h0 hpc⟩
    · rw [step_of_fetch h0 hpc]
      exact exec_next_of_sp_le (s := latchOpcode (fetchWord s) s) h _
  · exact ⟨s, step_of_halted h0⟩

/-! ### Legal states (10_state.md R41, 60_exceptions.md R180) -/

/-- The detail reported for an address is at least 0x1000 and is not cut by the 16 bits of FAULT_INFO. -/
theorem legalLatch_address (a : Word) :
    legalLatch Condition.addressOutOfRange.code (BitVec.ofNat 16 (max a.toNat 0x1000)) := by
  have ha := a.isLt
  have hinfo : (BitVec.ofNat 16 (max a.toNat 0x1000)).toNat = max a.toNat 0x1000 :=
    (BitVec.toNat_ofNat ..).trans (Nat.mod_eq_of_lt (by omega))
  exact .inr (.inl ⟨rfl, by omega⟩)

theorem legalLatch_key {b : Byte} (h : b.toNat > 15) :
    legalLatch Condition.keyIndexOutOfRange.code (BitVec.ofNat 16 b.toNat) := by
  have hb := b.isLt
  have hinfo : (BitVec.ofNat 16 b.toNat).toNat = b.toNat :=
    (BitVec.toNat_ofNat ..).trans (Nat.mod_eq_of_lt (by omega))
  exact .inr (.inr (.inr (.inr ⟨rfl, by omega, by omega⟩)))

theorem Raises.legalLatch {i : Instr} {s : State} {c : Condition} {info : Nat} (hsp : s.sp.toNat ≤ 16)
    (h : Raises s i c info) : legalLatch c.code (BitVec.ofNat 16 info) := by
  cases h with
  | ret h => exact .inr (.inr (.inr (.inl ⟨rfl, rfl⟩)))
  | call nnn h =>
    have h16 : s.sp.toNat = 16 := Nat.le_antisymm hsp h
    exact .inr (.inr (.inl ⟨rfl, congrArg (BitVec.ofNat 16) h16⟩))
  | drw | ldBVx | ldMemVx | ldVxMem => exact legalLatch_address s.i
  | skp h | sknp h => exact legalLatch_key h

theorem legal_raise {s : State} {c : Condition} {info : Nat} (hs : s.legal)
    (hl : legalLatch c.code (BitVec.ofNat 16 info)) : (raise c info s).legal := by
  obtain ⟨hm, hsp, -⟩ := hs
  exact ⟨hm, hsp, hl⟩

/-- A return lowers SP, a call below depth 16 raises it, a store stays inside the address space; nothing else writes
memory, SP or the latch. -/
theorem Completes.legal {i : Instr} {s t : State} (hs : s.legal) (h : Completes s t i) : t.legal := by
  obtain ⟨hm, hsp, hl⟩ := hs
  cases i with
  | ret =>
    obtain ⟨h0, _, -, rfl⟩ := h
    have hpop : (s.sp - 1).toNat ≤ 16 := by bv_omega
    exact ⟨hm, hpop, hl⟩
  | call nnn =>
    obtain ⟨hlt, rfl⟩ := h
    have hpush := push_sp_toNat s.npc hlt
    exact ⟨hm, hpush.trans_le hlt, hl⟩
  | ldBVx x =>
    obtain ⟨hin, rfl⟩ := h
    exact ⟨writeBytes_wf hm (indexBase s) (bcdDigits (s.getV x)) (Nat.succ_le_succ hin), hsp, hl⟩
  | ldMemVx x =>
    obtain ⟨hin, rfl⟩ := h
    have hlen := length_registersUpTo x s
    exact ⟨writeBytes_wf hm (indexBase s) (registersUpTo x s) (hlen ▸ Nat.succ_le_succ hin), hsp, hl⟩
  | ldVxK x => obtain ⟨-, rfl⟩ | ⟨-, _, rfl⟩ := h <;> exact ⟨hm, hsp, hl⟩
  | _ => cases h; exact ⟨hm, hsp, hl⟩

theorem exec_keeps_legal {i : Instr} {s t : State} (hs : s.legal) (h : exec i s = .next t) : t.legal := by
  obtain ⟨c, info, hr, rfl⟩ | hc := raises_or_completes h
  · exact legal_raise hs (hr.legalLatch hs.2.1)
  · exact hc.legal hs

theorem step_keeps_legal {s t : State} (hs : s.legal) (h : step s = .next t) : t.legal := by
  by_cases h0 : s.fault = 0
  · rcases Nat.lt_or_ge 0xFFE s.pc.toNat with hpc | hpc
    · rw [step_of_fetch_fault h0 hpc] at h
      cases h
      exact legal_raise hs (legalLatch_address s.pc)
    · rw [step_of_fetch h0 hpc] at h
      have hlatched : (latchOpcode (fetchWord s) s).legal := hs
      exact exec_keeps_legal hlatched h
  · rw [step_of_halted h0] at h
    cases h
    exact hs

/-! ### The obligations about the step -/

/-- Settles O11: a raised condition latches a legal detail, and every completed instruction keeps memory canonical and
SP in its range. -/
theorem stepKeepsLegalStates : Obligations.StepKeepsLegalStates :=
  fun _ _ => step_keeps_legal

/-- Settles O10: only RET can fail to answer, with SP above 16. -/
theorem everyStepAnswersANextState : Obligations.EveryStepAnswersANextState :=
  fun _ => step_next_of_sp_le

/-- Settles O7: the three branches of the step. -/
theorem stepRunsTheDecodedInstruction : Obligations.StepRunsTheDecodedInstruction :=
  fun _ => ⟨step_of_halted, step_of_fetch_fault, fun h0 hpc _ => step_of_fetch_word h0 hpc⟩

/-- Settles O9: the instruction raised the condition, and `Raises` lists all that do. -/
theorem onlyTheTabledInstructionsFault : Obligations.OnlyTheTabledInstructionsFault := by
  intro i s t hs he ht
  obtain ⟨c, info, hr, rfl⟩ := raises_of_latched hs he ht
  cases hr with
  | drw x y h1 h2 => exact ⟨h1, h2, rfl⟩
  | ret h | call nnn h | ldBVx x h | ldMemVx h | ldVxMem h | skp h | sknp h => exact ⟨h, rfl⟩

/-- Settles O8: the fault is that of the fetch, or one raised by the instruction after OPCODE is latched. -/
theorem faultsArePrecise : Obligations.FaultsArePrecise := by
  intro s t hs he ht
  rcases Nat.lt_or_ge 0xFFE s.pc.toNat with hpc | hpc
  · rw [step_of_fetch_fault hs hpc] at he
    cases he
    exact ⟨rfl, fun _ => rfl, fun hle => absurd hpc (Nat.not_lt.2 hle)⟩
  · rw [step_of_fetch hs hpc] at he
    obtain ⟨c, info, -, rfl⟩ := raises_of_latched (s := latchOpcode (fetchWord s) s) hs he ht
    exact ⟨rfl, fun hgt => absurd hpc (Nat.not_le.2 hgt), fun _ => fetchWord_toNat s⟩

/-- Settles O23: with SP above 16, RET is in the last of its three branches. -/
theorem returnStopsWhereThereIsNoSlot : Obligations.ReturnStopsWhereThereIsNoSlot := by
  intro s h
  exact (execRet_eq s).trans (by rw [if_neg (by omega), dif_neg (by omega)])

/-! ### The obligations over all instructions -/

/-- Settles O15: what completes advances, skips, jumps or, waiting for a key, stays. -/
theorem programCounterLaw : Obligations.ProgramCounterLaw := by
  intro i s t _ he ht
  have h := completes_of_not_latched he ht
  cases i with
  | jp nnn => cases h; rfl
  | call nnn => obtain ⟨-, rfl⟩ := h; rfl
  | jpV0 nnn => cases h; exact BitVec.toNat_ofNat ..
  | ret => obtain ⟨-, target, htop, rfl⟩ := h; exact htop
  | seImm x kk => cases h; exact pcSkips_skipIf beq_iff_eq s
  | sneImm x kk => cases h; exact pcSkips_skipIf bne_iff_ne s
  | seReg x y => cases h; exact pcSkips_skipIf beq_iff_eq s
  | sneReg x y => cases h; exact pcSkips_skipIf bne_iff_ne s
  | skp x => cases h; exact pcSkips_skipIf Iff.rfl s
  | sknp x => cases h; exact pcSkips_skipIf (Bool.not_eq_true' _).to_iff s
  | ldVxK x =>
    obtain ⟨hkey, rfl⟩ | ⟨hkey, _, rfl⟩ := h
    · exact ⟨fun hne => absurd hkey hne, fun _ => rfl⟩
    · exact ⟨fun _ => pcAdvanced_advance s, fun h0 => absurd h0 hkey⟩
  | ldBVx x | ldMemVx x => obtain ⟨-, rfl⟩ := h; exact pcAdvanced_advance s
  | _ => cases h; exact pcAdvanced_advance s

/-- Settles O17: of a raised condition nothing reaches a register; what completes writes its destination, its flag, or
the registers of a block load. -/
theorem onlyDestinationRegistersChange : Obligations.OnlyDestinationRegistersChange := by
  intro i s t he
  obtain ⟨c, info, -, rfl⟩ | h := raises_or_completes he
  · cases i <;> exact fun _ _ => rfl
  cases i with
  | ldImm x _ | addImm x _ | ldReg x _ | orReg x _ | andReg x _ | xorReg x _ | ldVxDT x =>
    cases h; exact (advance_setV_frame s x _).1
  | rnd x kk => cases h; exact (advance_setV_frame (countDraw s) x _).1
  | addReg x _ | subReg x _ | subnReg x _ | shr x _ | shl x _ =>
    cases h; exact (advance_writeResultAndFlag_frame s x _ _).1
  | drw x y n => cases h; exact sameRegistersBut_setFlag _ s
  | addIVx x => cases h; exact (advance_setFlag_setI_frame s _ _).1
  | ldVxMem x => cases h; exact fun r => getV_blockLoaded_of_lt s
  | ldVxK x =>
    obtain ⟨-, rfl⟩ | ⟨-, _, rfl⟩ := h
    · exact fun _ _ => rfl
    · exact (advance_setV_frame s x _).1
  | ret => obtain ⟨-, _, -, rfl⟩ := h; exact fun _ _ => rfl
  | call _ | ldBVx _ | ldMemVx _ => obtain ⟨-, rfl⟩ := h; exact fun _ _ => rfl
  | _ => cases h; exact fun _ _ => rfl

/-- Settles O18: the two stores write a block; every other instruction leaves memory as it is. -/
theorem onlyStoresChangeMemory : Obligations.OnlyStoresChangeMemory := by
  intro i s t he
  obtain ⟨c, info, -, rfl⟩ | h := raises_or_completes he
  · cases i with
    | ldBVx _ | ldMemVx _ => exact fun _ _ => rfl
    | _ => exact fun _ => rfl
  cases i with
  | ldBVx x =>
    obtain ⟨-, rfl⟩ := h
    obtain ⟨hframe, -⟩ := advance_storeBytes_frame s (indexBase s) (bcdDigits (s.getV x))
    exact hframe
  | ldMemVx x =>
    obtain ⟨-, rfl⟩ := h
    obtain ⟨hframe, -⟩ := advance_storeBytes_frame s (indexBase s) (registersUpTo x s)
    rw [length_registersUpTo] at hframe
    exact hframe
  | ret => obtain ⟨-, _, -, rfl⟩ := h; exact fun _ => rfl
  | call nnn => obtain ⟨-, rfl⟩ := h; exact fun _ => rfl
  | ldVxK x => obtain ⟨-, rfl⟩ | ⟨-, _, rfl⟩ := h <;> exact fun _ => rfl
  | _ => cases h; exact fun _ => rfl

/-- Settles O16: a raised condition writes the latch alone; what completes is a known update of the state. -/
theorem onlyNamedInstructionsWriteSpecialState : Obligations.OnlyNamedInstructionsWriteSpecialState := by
  intro i s t he
  obtain ⟨c, info, hr, rfl⟩ | h := raises_or_completes he
  · cases hr <;> simp [sameStack, sameDisplay]
  cases i with
  | ret => obtain ⟨-, _, -, rfl⟩ := h; simp [sameDisplay]
  | call _ | ldBVx _ | ldMemVx _ => obtain ⟨-, rfl⟩ := h; simp [sameStack, sameDisplay]
  | ldVxK x => obtain ⟨-, rfl⟩ | ⟨-, _, rfl⟩ := h <;> simp [sameStack, sameDisplay]
  | ldVxMem x => cases h; simp [sameStack, sameDisplay, blockLoaded]
  | _ => cases h; simp [sameStack, sameDisplay]

end Sys2Proof.Machine

/-! What memory holds determines it, and what several instructions do one after another: a call and a return, a sprite
drawn twice, a block stored and then loaded or fetched. Then the proofs about them. -/

namespace Sys2Proof.Machine

/-! ### The cells of a canonical memory (log entry 5) -/

theorem readCells_of_mem {l : List Host.Cell} (hl : l.Pairwise fun c d => c.1 < d.1) {c : Host.Cell} (hc : c ∈ l) :
    Memory.readCells l c.1 = c.2 := by
  induction l with
  | nil => cases hc
  | cons d l ih =>
    obtain ⟨hd, hl⟩ := List.pairwise_cons.1 hl
    rcases List.mem_cons.1 hc with rfl | hc
    · exact if_pos rfl
    · exact (if_neg (Nat.ne_of_lt (hd c hc))).trans (ih hl hc)

/-- The cells listed are those that read otherwise than after a reset. -/
theorem mem_cells_iff {m : Memory} (hm : m.wf) (c : Host.Cell) :
    c ∈ m.cells ↔ c.1 < 4096 ∧ m.read c.1 = c.2 ∧ c.2 ≠ Memory.unlisted c.1 := by
  obtain ⟨hrising, hcells⟩ := hm
  constructor
  · intro hc
    obtain ⟨hlt, hne⟩ := hcells c hc
    exact ⟨hlt, readCells_of_mem hrising hc, hne⟩
  · rintro ⟨-, hread, hne⟩
    by_cases hlisted : ∃ d ∈ m.cells, d.1 = c.1
    · obtain ⟨d, hd, haddr⟩ := hlisted
      have hbyte : d.2 = c.2 := by rw [← readCells_of_mem hrising hd, haddr]; exact hread
      exact Prod.ext haddr hbyte ▸ hd
    · have hunlisted := readCells_eq_unlisted m.cells c.1 fun d hd haddr => hlisted ⟨d, hd, haddr⟩
      exact absurd (hread.symm.trans hunlisted) hne

/-- Two strictly rising lists with the same cells are the same list. -/
theorem cells_eq_of_mem_iff {l l' : List Host.Cell} (hl : l.Pairwise fun c d => c.1 < d.1)
    (hl' : l'.Pairwise fun c d => c.1 < d.1) (h : ∀ c, c ∈ l ↔ c ∈ l') : l = l' := by
  have hnodup {k : List Host.Cell} (hk : k.Pairwise fun c d => c.1 < d.1) : k.Nodup :=
    hk.imp fun hlt heq => Nat.ne_of_lt hlt (congrArg Prod.fst heq)
  have hperm : l.Perm l' := (List.perm_ext_iff_of_nodup (hnodup hl) (hnodup hl')).2 h
  exact hperm.eq_of_pairwise (fun _ _ _ _ hlt hgt => absurd hgt (Nat.lt_asymm hlt)) hl hl'

/-! ### A sprite drawn twice (43_display.md R143) -/

/-- A sprite drawn a second time at the same place toggles the same cells back. -/
theorem get_drawRows_twice (bs : List Byte) (d : Display) (hit hit' : Bool) (x0 y0 px py : Nat) :
    (Canvas.drawRows ⟨(Canvas.drawRows ⟨d, hit⟩ x0 y0 bs).disp, hit'⟩ x0 y0 bs).disp.get px py = d.get px py := by
  by_cases hin : px < 64 ∧ py < 32
  · obtain ⟨hx, hy⟩ := hin
    rw [get_drawRows bs _ x0 y0 px py hx hy, get_drawRows bs _ x0 y0 px py hx hy, Bool.xor_assoc, Bool.xor_self,
      Bool.xor_false]
  · rw [get_outside _ hin, get_outside _ hin]

/-! ### A return, and a fetch from bytes just stored -/

/-- RET with a slot below SP, by what that slot holds (40_control_flow.md R92). -/
theorem exec_ret_of_top {s : State} {target : Word} (h0 : s.sp.toNat ≠ 0)
    (htop : s.stack[s.sp.toNat - 1]? = some target) :
    exec .ret s = .next { s with sp := s.sp - 1, pc := target } := by
  obtain ⟨hlt, rfl⟩ := Vector.getElem?_eq_some_iff.1 htop
  exact exec_ret_of_pos h0 (by omega)

/-! ### The obligations -/

/-- Settles O19: the cells listed are determined by what memory reads, and their order by their addresses. -/
theorem canonicalMemoryIsDeterminedByItsBytes : Obligations.CanonicalMemoryIsDeterminedByItsBytes := by
  intro m m' hm hm' hread
  refine congrArg Memory.mk (cells_eq_of_mem_iff hm.1 hm'.1 fun c => ?_)
  rw [mem_cells_iff hm, mem_cells_iff hm']
  exact and_congr_right fun hlt => by rw [hread c.1 hlt]

/-- Settles O24: the call leaves its return address in the slot below the new SP, where the return takes it. -/
theorem returnUndoesCall : Obligations.ReturnUndoesCall := by
  intro nnn s t hsp he
  rw [exec_call_of_lt nnn hsp] at he
  cases he
  have hdepth := push_sp_toNat s.npc hsp
  have htop : (push s.npc s).stack[(push s.npc s).sp.toNat - 1]? = some s.npc := by
    rw [hdepth, Nat.add_sub_cancel]
    exact push_stack_self s.npc hsp
  refine ⟨_, exec_ret_of_top (s := { push s.npc s with pc := nnn }) (hdepth ▸ Nat.succ_ne_zero _) htop,
    npc_toNat s, ?_, rfl, rfl, rfl, fun k => push_stack_other s.npc s⟩
  exact BitVec.add_sub_cancel s.sp 1

/-- Settles O27: the draw is counted, then one register is written with the byte drawn before it. -/
theorem randomByteIsMasked : Obligations.RandomByteIsMasked := by
  intro x kk s
  have hx := x.isLt
  have hk := kk.isLt
  obtain ⟨hregs, hpc, ⟨hmem, hstack, htimers, hdisp, hcontrol, -⟩, hi⟩ :=
    advance_setV_frame (countDraw s) x (drawnByte s &&& kk)
  have hbyte := getV_setV_self (countDraw s) x (drawnByte s &&& kk)
  refine ⟨encodes_of_toNat (by omega) fun w hw => decode_rnd (by omega) (by omega) (by omega),
    _, rfl, hbyte, fun j hj => ?_, rfl, rfl, hregs, hpc, hi, hmem, hstack, htimers, hdisp, hcontrol⟩
  rw [advance_getV, hbyte, BitVec.getLsbD_and, hj, Bool.and_false]

/-- Settles O33: the second draw is of the same bytes at the same origin, and toggles the same cells. -/
theorem drawingTwiceRestoresTheDisplay : Obligations.DrawingTwiceRestoresTheDisplay := by
  intro x y n s t hrange he
  have hin : n = 0 ∨ s.i.toNat + n - 1 ≤ 0xFFF := by omega
  rw [exec_drw_inside x y hin] at he
  cases he
  exact ⟨_, exec_drw_inside x y hin, get_drawRows_twice _ s.disp false false _ _⟩

/-- Settles O40: the two branches of the range check; inside it, the state is that of `blockLoaded`. -/
theorem blockLoadReadsRegistersInOrder : Obligations.BlockLoadReadsRegistersInOrder := by
  intro x s
  refine ⟨encodes_familyF x (kk := 0x65) (by decide) decode_ldVxMem, exec_ldVxMem_outside, fun h => ?_⟩
  exact ⟨_, exec_ldVxMem_inside h, fun r => getV_blockLoaded_of_le s, fun r => getV_blockLoaded_of_lt s,
    pcAdvanced_advance _, (sameButPc_advance (blockLoaded x s)).1⟩

/-- Settles O41: the bytes loaded are those the store wrote, and those are the registers before it. -/
theorem blockStoreThenLoadRestoresRegisters : Obligations.BlockStoreThenLoadRestoresRegisters := by
  intro x s t v hm hrange he
  rw [exec_ldMemVx_inside hrange] at he
  cases he
  refine ⟨_, exec_ldVxMem_inside hrange, fun r hr => ?_⟩
  exact (getV_blockLoaded_of_le _ hr).trans (read_storeRegisters hm hrange hr)

/-- Settles O42: the two bytes at I are V[0] and V[1], so the word fetched there is theirs. -/
theorem storedWordIsFetchedNext : Obligations.StoredWordIsFetchedNext := by
  intro x s t hm h0 hx hrange he w hw
  rw [exec_ldMemVx_inside hrange] at he
  cases he
  have hfirst := read_storeRegisters hm hrange (r := 0) (Fin.zero_le x)
  have hsecond := read_storeRegisters hm hrange (r := 1) hx
  have hpc : s.i.toNat ≤ 0xFFE := by omega
  exact step_of_fetch_word h0 hpc (by rw [hw, ← hfirst, ← hsecond]; rfl)

end Sys2Proof.Machine

/-! What an event does to a legal state, and to a halted one, and what a run of them does. Then the proofs about events,
snapshots, reset and the debug port. -/

namespace Sys2Proof.Machine

/-! ### Reset and Load (70_reset_and_hazards.md R210, R213) -/

theorem reset_legal : State.reset.legal := ⟨empty_wf, Nat.zero_le 16, .inl ⟨rfl, rfl⟩⟩

theorem resetWith_legal (seed : Nat) (s : State) : (resetWith seed s).legal := reset_legal

theorem loadImage_legal (seed : Nat) {image : List Byte} (hfits : image.length ≤ 3584) (s : State) :
    (loadImage seed image s).legal := by
  obtain ⟨hm, hsp, hl⟩ := resetWith_legal seed s
  have hend : 0x200 + image.length ≤ 4096 := by omega
  exact ⟨writeBytes_wf hm 0x200 image hend, hsp, hl⟩

theorem loadEvent_legal (seed : Nat) (image : List Byte) {s : State} (hs : s.legal) :
    (loadEvent seed image s).1.legal := by
  rcases Nat.lt_or_ge 3584 image.length with hlong | hfits
  · rw [loadEvent_refused hlong]
    exact hs
  · rw [loadEvent_loaded hfits]
    exact loadImage_legal seed hfits s

/-- With nothing listed memory reads as its reset contents (10_state.md R22, R38). -/
theorem read_empty (a : Nat) : Memory.read ⟨[]⟩ a = resetByte a := by
  have hglyph : (0x050 ≤ a ∧ a < 0x050 + 80) ↔ (0x050 ≤ a ∧ a ≤ 0x09F) := by omega
  exact if_congr hglyph rfl rfl

/-! ### Events and runs on a legal state (10_state.md R41) -/

/-- A Restore of a snapshot that is not legal is the one event without an answer. -/
theorem event_on_legal (e : Event) {s : State} (hs : s.legal) :
    (∃ t r, event e s = .next (t, r) ∧ t.legal) ∨
      ((∃ p, e = .restore p) ∧ event e s = .refused .restoreOfNoSnapshot) := by
  cases e with
  | step =>
    obtain ⟨t, ht⟩ := step_next_of_sp_le hs.2.1
    exact .inl ⟨t, .done, stepEvent_next ht, step_keeps_legal hs ht⟩
  | reset seed => exact .inl ⟨_, _, rfl, resetWith_legal seed s⟩
  | load seed image => exact .inl ⟨_, _, rfl, loadEvent_legal seed image hs⟩
  | restore p =>
    by_cases hp : p.legal
    · exact .inl ⟨restoreFrom p s, .done, restoreEvent_legal hp s, hp⟩
    · exact .inr ⟨⟨p, rfl⟩, restoreEvent_refused hp s⟩
  | tick | setKeys _ | clearDirty | snapshot => exact .inl ⟨_, _, rfl, hs⟩

theorem runEvents_on_legal (es : List Event) {s : State} (hs : s.legal) :
    (∃ t, runEvents es s = .next t ∧ t.legal) ∨ runEvents es s = .refused .restoreOfNoSnapshot := by
  induction es generalizing s with
  | nil => exact .inl ⟨s, rfl, hs⟩
  | cons e es ih =>
    obtain ⟨t, r, he, ht⟩ | ⟨-, he⟩ := event_on_legal e hs
    · rw [runEvents_next he]
      exact ih ht
    · exact .inr (by rw [runEvents, he])

/-! ### Events and runs on a halted state (60_exceptions.md R183) -/

/-- `t` is `s` but for what the host's events write without replacing the state: the timers, the keys and DIRTY. -/
def OnlyHostStateDiffers (s t : State) : Prop :=
  ∃ dt st key dirty, t = { s with dt := dt, st := st, key := key, dirty := dirty }

theorem OnlyHostStateDiffers.fault_eq {s t : State} (h : OnlyHostStateDiffers s t) : t.fault = s.fault := by
  obtain ⟨_, _, _, _, rfl⟩ := h
  rfl

theorem OnlyHostStateDiffers.trans {s t u : State} (h : OnlyHostStateDiffers s t) (h' : OnlyHostStateDiffers t u) :
    OnlyHostStateDiffers s u := by
  obtain ⟨_, _, _, _, rfl⟩ := h
  obtain ⟨dt, st, key, dirty, rfl⟩ := h'
  exact ⟨dt, st, key, dirty, rfl⟩

/-- A run that answers a state has had an answer from its first event. -/
theorem exists_of_runEvents_cons {e : Event} {es : List Event} {s t : State} (h : runEvents (e :: es) s = .next t) :
    ∃ u r, event e s = .next (u, r) ∧ runEvents es u = .next t := by
  rw [runEvents] at h
  cases he : event e s with
  | next p => rw [he] at h; exact ⟨p.1, p.2, rfl, h⟩
  | fault r => rw [he] at h; cases h
  | refused r => rw [he] at h; cases h

theorem stepEvent_of_halted {s : State} (hs : s.fault ≠ 0) : stepEvent s = .next (s, .done) :=
  stepEvent_next (step_of_halted hs)

theorem event_of_halted {e : Event} {s t : State} {r : Reply} (hs : s.fault ≠ 0) (hkeeps : e.replacesState = false)
    (he : event e s = .next (t, r)) : OnlyHostStateDiffers s t := by
  cases e with
  | step =>
    rw [event, stepEvent_of_halted hs] at he
    cases he; exact ⟨_, _, _, _, rfl⟩
  | load seed image =>
    have hlong : image.length > 3584 := Nat.not_le.mp (of_decide_eq_false hkeeps)
    rw [event, loadEvent_refused hlong] at he
    cases he; exact ⟨_, _, _, _, rfl⟩
  | reset _ | restore _ => cases hkeeps
  | tick | setKeys _ | clearDirty | snapshot => cases he; exact ⟨_, _, _, _, rfl⟩

theorem runEvents_of_halted {es : List Event} {s t : State} (hs : s.fault ≠ 0)
    (hkeeps : ∀ e ∈ es, e.replacesState = false) (h : runEvents es s = .next t) : OnlyHostStateDiffers s t := by
  induction es generalizing s with
  | nil => cases h; exact ⟨_, _, _, _, rfl⟩
  | cons e es ih =>
    obtain ⟨hkeep, hkeeps⟩ := List.forall_mem_cons.1 hkeeps
    obtain ⟨u, r, he, hrun⟩ := exists_of_runEvents_cons h
    have hfirst := event_of_halted hs hkeep he
    exact hfirst.trans (ih (hfirst.fault_eq ▸ hs) hkeeps hrun)

/-! ### The obligations -/

/-- Settles O48: each event answers a legal state, but for a Restore that is refused. -/
theorem everyEventKeepsLegalStates : Obligations.EveryEventKeepsLegalStates := by
  intro e s hs
  obtain ⟨t, r, he, ht⟩ | ⟨hrestore, he⟩ := event_on_legal e hs
  · rw [he]
    exact ht
  · rw [he]
    exact ⟨rfl, hrestore⟩

/-- Settles O12: a reset lists no cell, and has SP and the latch at 0. -/
theorem resetStateIsLegal : Obligations.ResetStateIsLegal := ⟨reset_legal, resetWith_legal⟩

/-- Settles O13: the state after Reset is legal, and every event of the run keeps it so. -/
theorem reachableStatesAreLegal : Obligations.ReachableStatesAreLegal := by
  intro seed s es
  obtain ⟨t, hrun, ht⟩ | hrun := runEvents_on_legal es (resetWith_legal seed s)
  · rw [hrun]
    exact ht
  · rw [hrun]

/-- Settles O14: a halted step answers its own state, and no other event that keeps the state writes more than the
timers, the keys and DIRTY. -/
theorem haltedCoreStaysAsItIs : Obligations.HaltedCoreStaysAsItIs := by
  intro s hs
  refine ⟨stepEvent_of_halted hs, fun es t hkeeps hrun => ?_⟩
  obtain ⟨_, _, _, _, rfl⟩ := runEvents_of_halted hs hkeeps hrun
  exact ⟨rfl, rfl, rfl, rfl, rfl, rfl, rfl, rfl, rfl, rfl, rfl⟩

/-- Settles O46: the snapshot of a legal state is legal, so a Restore takes it, and writes back all it holds. -/
theorem restoreReproducesTheSnapshot : Obligations.RestoreReproducesTheSnapshot :=
  fun s u hs => ⟨rfl, restoreEvent_legal (p := takeSnapshot s) hs u⟩

/-- Settles O44: every field is that of `State.reset`, and memory with nothing listed reads as the glyph table and 0. -/
theorem resetGivesEveryStateItsValue : Obligations.ResetGivesEveryStateItsValue := by
  intro seed s
  refine ⟨rfl, fun a _ => read_empty a, fun r => ?_, fun k => ?_, rfl, rfl, rfl, rfl, rfl, rfl, rfl, get_blank, rfl,
    rfl, rfl, rfl⟩
  · exact Vector.getElem_replicate r.isLt
  · exact Vector.getElem_replicate k.isLt

/-- Settles O49: each field of the port is read from the state. -/
theorem debugPortShowsTheNamedState : Obligations.DebugPortShowsTheNamedState :=
  fun _ => ⟨rfl, rfl, rfl, rfl, rfl, rfl, rfl, rfl, rfl, rfl⟩

end Sys2Proof.Machine
